-- ==== Sys2Proof/Word.lean ====
section
/-! DEFINITION. The value type of the machine (00_scope.md R3) and the names of the roles a value plays in an
instruction (30_encoding.md R72). A value is a signed integer and never a bit field: the spec gives no field narrower
than a cell (R5, R54, R72). -/

namespace Sys2Proof

/-- A register operand as its cell holds it, before `checkReg` (R24): any integer can stand there. This name and the
three below say the role of a value where an instruction is declared; elsewhere a value is an `Int`, since every register
value, memory cell value, immediate, address and target is an integer (R3). -/
abbrev RegId := Int

/-- A memory operand: an absolute cell index as its cell holds it, before any bounds check (R53, R72). -/
abbrev Addr := Int

/-- An immediate operand: every integer is legal (R72). -/
abbrev Imm := Int

/-- A jump target: an absolute address, unchecked until it is fetched (R72, R172). -/
abbrev Target := Int

/-- The parameter `WIDTH` (R2): unbounded integers, or `w`-bit two's complement. -/
inductive Width where
  /-- `WIDTH = INF`: the value of this hardware. -/
  | inf
  /-- `WIDTH = W`: values in `[-2^(W-1), 2^(W-1) - 1]`. -/
  | bits (w : Nat)
  deriving DecidableEq, Repr

/-- The value lies in the range of R3. -/
def Width.holds (width : Width) (v : Int) : Bool :=
  match width with
  | .inf => true
  | .bits w => decide (-(2 ^ (w - 1) : Int) ≤ v ∧ v ≤ 2 ^ (w - 1) - 1)

/-- The width is in the legal range of R2: `INF`, or at least 2 bits. -/
def Width.legal (width : Width) : Prop :=
  match width with
  | .inf => True
  | .bits w => 2 ≤ w

end Sys2Proof
end

