-- ==== Sys2Proof/Config.lean ====
section
/-! DEFINITION. What an implementation fixes (the parameters of 00_scope.md R2, each with the value it has for this
hardware) and the values the spec leaves free (notes/assumptions/2.md, 3.md, 4.md, 5.md). -/

namespace Sys2Proof

/-- The 26 mnemonics, in the order of the canonical list (30_encoding.md R71, R73). -/
inductive Mnemonic where
  | addRegReg | addMemReg | addRegMem | addImmReg
  | subRegReg | subMemReg | subRegMem | subImmReg
  | imulRegReg | imulMemReg | imulRegMem
  | moveRegReg | moveMemReg | moveRegMem | moveImmReg
  | incReg
  | jmp | jz | jn | jnz | jeq | jgt | jlw
  | ldi | read | store
  deriving DecidableEq, Repr

/-- The canonical ordered mnemonic list of R71 and R73: the one list that numbers the opcodes and drives the dispatch
(R100). -/
def Mnemonic.canonical : List Mnemonic :=
  [.addRegReg, .addMemReg, .addRegMem, .addImmReg,
   .subRegReg, .subMemReg, .subRegMem, .subImmReg,
   .imulRegReg, .imulMemReg, .imulRegMem,
   .moveRegReg, .moveMemReg, .moveRegMem, .moveImmReg,
   .incReg,
   .jmp, .jz, .jn, .jnz, .jeq, .jgt, .jlw,
   .ldi, .read, .store]

/-- The parameter `IMUL_SCRATCH_FINAL` (R2, R143): what `imulRegMem` leaves in its scratch cell. -/
inductive ScratchFinal where
  | product
  | any
  deriving DecidableEq, Repr

/-- The parameters a model of the block takes as arguments (R2). -/
structure Params where
  /-- `MEM_SIZE`. -/
  memSize : Nat
  /-- `NGPR` (R22). -/
  ngpr : Nat
  /-- `WIDTH`. -/
  width : Width
  /-- `OPCODE_OF`. -/
  opcodeOf : Mnemonic → Int
  /-- `IMUL_SCRATCH_FINAL`. -/
  scratchFinal : ScratchFinal

/-- Every parameter lies in the legal range R2 gives it. -/
structure Params.Legal (P : Params) : Prop where
  memSize_pos : 1 ≤ P.memSize
  ngpr_min : 3 ≤ P.ngpr
  width_legal : P.width.legal
  opcode_injective : ∀ m n : Mnemonic, P.opcodeOf m = P.opcodeOf n → m = n
  opcode_not_sentinel : ∀ m : Mnemonic, P.opcodeOf m ≠ -1

/-- A general-purpose register: an id that has passed `checkReg` (R24). -/
abbrev Reg (P : Params) := Fin P.ngpr

/-- The register operand that names a general-purpose register. -/
abbrev Reg.id {P : Params} (r : Reg P) : Int := (r.val : Int)

/-- "The integer position of a mnemonic in this list IS its opcode" (R71). -/
def Config.opcodeOf (m : Mnemonic) : Int := (Mnemonic.canonical.idxOf m : Nat)

/-- The parameters of this hardware: the "value for this hardware" column of R2. -/
def Config.hardware : Params where
  memSize := 128
  ngpr := 4
  width := .inf
  opcodeOf := Config.opcodeOf
  scratchFinal := .product

/-- What a free value stands for: each source is free independently of the others. -/
inductive FreeSource where
  /-- `ir` after an instruction that completed (R28) or faulted in EXECUTE (R195). -/
  | ir
  /-- `pc` after a fault raised during EXECUTE (R195). -/
  | pc
  /-- The external bus at an instruction boundary (R37). -/
  | ext
  /-- Internal bus A at an instruction boundary (R37). -/
  | intA
  /-- Internal bus B at an instruction boundary (R37). -/
  | intB
  /-- The select line at an instruction boundary (R37). -/
  | sel
  /-- ALU slot 0 at an instruction boundary (R33, R37). -/
  | slot0
  /-- ALU slot 1 at an instruction boundary (R33, R37). -/
  | slot1
  /-- The memory's pending store address at an instruction boundary (R37). -/
  | pending
  /-- The scratch cell of `imulRegMem` when `IMUL_SCRATCH_FINAL = any` (R143). -/
  | scratch
  deriving DecidableEq, Repr

/-- The values the spec leaves free: an integer for each source and each value of the counter `State.draws`. It has no
body, so nothing can be proved of what it answers. -/
opaque Config.freeValue : FreeSource → Nat → Int

end Sys2Proof
end

