-- ==== Sys2Proof/Machine/State.lean ====
section
/-! DEFINITION. The machine's state (10_state.md), the reasons a step can stop, and the state after reset (R38, R220).
State is plain data. -/

namespace Sys2Proof.Machine

/-- The four error conditions of 60_exceptions.md R190, each with what it records. -/
inductive Condition where
  /-- An access at an address outside `[0, MEM_SIZE)` (R51, R52, R191); records the address. -/
  | outOfBounds (a : Int)
  /-- A register operand that names no general-purpose register (R24, R192); records the id. -/
  | invalidRegister (i : Int)
  /-- `imulRegMem` found no cell holding 0 (R144, R193). -/
  | noScratchCell
  /-- The loader met a line that is no loadable integer (R194, R221); records the line number, counted from 0. -/
  | loadFormat (line : Nat)
  deriving DecidableEq, Repr

/-- The control state `ctl` (R36). -/
inductive Ctl where
  | fetch
  | execute
  /-- Terminal: a normal end of run (R99, R207, R224). -/
  | halted
  /-- Terminal: the run was aborted by this condition (R195). -/
  | faulted (c : Condition)
  deriving DecidableEq, Repr

/-- The flags register: three independent bits (R29). -/
structure Flags where
  /-- `isZero`. -/
  z : Bool
  /-- `isNegative`. -/
  n : Bool
  /-- `isNonZero`. -/
  nz : Bool
  deriving DecidableEq, Repr

/-- The hidden datapath state (R20, R33, R35), which no instruction reads across an instruction boundary (R37). -/
structure Hidden where
  /-- The external bus `EXT`. -/
  ext : Int
  /-- Internal bus A, `INTA`. -/
  intA : Int
  /-- Internal bus B, `INTB`. -/
  intB : Int
  /-- The select line `SEL` of the demultiplexer. -/
  sel : Int
  /-- ALU operand slot 0. -/
  slot0 : Int
  /-- ALU operand slot 1. -/
  slot1 : Int
  /-- The memory's pending store address (R95). -/
  pending : Int
  deriving DecidableEq, Repr

/-- An indexed array of integers, as the list of the indices that do not hold 0, with their values, by strictly rising
index; an unlisted index holds its reset value 0 (R38). A memory cell and a register hold one integer each, so an entry is
an index and an integer (notes/assumptions/8.md). -/
abbrev Cells := List (Nat × Int)

/-- The canonical form: indices strictly rise and no entry holds the value an unlisted index reads as. -/
abbrev Cells.wf (m : Cells) : Prop :=
  m.Pairwise (fun c d => c.1 < d.1) ∧ ∀ c ∈ m, c.2 ≠ 0

/-- The state of the machine: the architectural and the hidden state of R20, and the counter of the free values. -/
structure State where
  /-- The memory `M[0..MEM_SIZE-1]` (R50). -/
  mem : Cells
  /-- The general-purpose registers `x[0..NGPR-1]` by register-file index (R21, R22, R23). How many there are is the
  parameter `NGPR`, as `MEM_SIZE` is for the memory (notes/assumptions/7.md). -/
  gpr : Cells
  /-- The program counter (R27). -/
  pc : Int
  /-- The instruction register (R28). -/
  ir : Int
  /-- The flags register (R29). -/
  flags : Flags
  /-- The control state (R36). -/
  ctl : Ctl
  /-- The buses, the ALU slots and the pending store address (R20). -/
  hid : Hidden
  /-- The model's own field, not the spec's: how many times free values were drawn (notes/assumptions/2.md). -/
  draws : Nat
  deriving DecidableEq, Repr

/-- Why a step has no next state. The spec's error conditions are no `Fault`: they lead to a next state whose `ctl` is
`FAULTED` (R110, R195). -/
inductive Fault where
  /-- Raised by `step` at `ctl = HALTED`, where the machine has no step (R97, R110). It is the normal end of a run, not
  an error (R196, R224). Safe: the block does nothing more either (R207). -/
  | halted
  /-- Raised by `step` at `ctl = FAULTED`, where the machine has no step (R97, R110, R195). Safe: the block does nothing
  more either (R207). -/
  | faulted (c : Condition)
  deriving DecidableEq, Repr

/-- Why an instruction has no meaning. -/
inductive Refusal where
  /-- For an arm of `exec` without a meaning; no arm is left that answers it. Safe: it stops where the block goes on. -/
  | notModelled (mnemonic : String)
  deriving DecidableEq, Repr

/-- The state after reset, before the loader writes a program (R38, R220). `hid.pending` and `draws` have no reset value
in the spec (notes/assumptions/1.md, 2.md). -/
def State.reset : State where
  mem := []
  gpr := []
  pc := 0
  ir := 0
  flags := ⟨false, false, false⟩
  ctl := .fetch
  hid := ⟨0, 0, 0, 0, 0, 0, 0⟩
  draws := 0

end Sys2Proof.Machine
end

