-- ==== Sys2Proof/Machine/Alu.lean ====
section
/-! DEFINITION. The arithmetic of the block: `wrap` (00_scope.md R3) and the multiply (42_imul.md R140, R145). -/

namespace Sys2Proof.Machine

/-- `wrap(v)` (R3): the identity at `WIDTH = INF`, two's complement at `WIDTH = W`. -/
def wrap (width : Width) (v : Int) : Int :=
  match width with
  | .inf => v
  | .bits w => (v + 2 ^ (w - 1)) % 2 ^ w - 2 ^ (w - 1)

/-- `repeat k times: acc <- wrap(acc + x)`: the ALU adds of the multiply loop (R140). -/
def addTimes (width : Width) (x : Int) : Nat → Int → Int
  | 0, acc => acc
  | k + 1, acc => addTimes width x k (wrap width (acc + x))

/-- `repeat k times: acc <- wrap(acc - x)`: the ALU subtractions of the multiply loop (R140). -/
def subTimes (width : Width) (x : Int) : Nat → Int → Int
  | 0, acc => acc
  | k + 1, acc => subTimes width x k (wrap width (acc - x))

/-- `mul(x, n)` as R140 writes it: repeated addition of the multiplicand `x`, counted by the multiplier `n`. -/
def mulLoop (width : Width) (x n : Int) : Int :=
  if n = 0 then 0
  else if 0 < n then addTimes width x (n - 1).toNat x
  else subTimes width x (-n).toNat 0

/-- `mul(x, n)` in the form the instructions use: "a model may compute `wrap(x * n)` directly" (R140). That the loop
gives the same value for every `x` of the machine is the statement `MultiplyLoopIsWrappedProduct`. -/
def mul (width : Width) (x n : Int) : Int := wrap width (x * n)

/-- How many ALU operations the multiply loop takes (R145, informative: no meaning reads it). -/
def mulAluOps (n : Int) : Nat := if 0 < n then (n - 1).toNat else (-n).toNat

end Sys2Proof.Machine
end

