-- ==== Sys2Proof/Machine/Flags.lean ====
section
/-! DEFINITION. The flags register: its one computation `setFlags` (10_state.md R30) and its bit-level access (R29). -/

namespace Sys2Proof.Machine

/-- The three flags of a result (R30). -/
def flagsOf (r : Int) : Flags where
  z := decide (r = 0)
  n := decide (r < 0)
  nz := decide (r ≠ 0)

/-- `setFlags(r)`: all three bits are recomputed together (R30). -/
def State.setFlags (s : State) (r : Int) : State := { s with flags := flagsOf r }

/-- The flags of R29 by their bit numbers in the register word: 0 is `Z`, 1 is `N`, 2 is `NZ`. -/
def Flags.getBit (f : Flags) : Fin 3 → Bool
  | 0 => f.z
  | 1 => f.n
  | 2 => f.nz

/-- Writes one flag by its bit number (R29). -/
def Flags.setBit (f : Flags) (b : Fin 3) (v : Bool) : Flags :=
  match b with
  | 0 => { f with z := v }
  | 1 => { f with n := v }
  | 2 => { f with nz := v }

/-- The flags register viewed as a word (R29); no bit from 3 up exists. -/
def Flags.word (f : Flags) : BitVec 3 :=
  BitVec.ofBool f.nz ++ BitVec.ofBool f.n ++ BitVec.ofBool f.z

end Sys2Proof.Machine
end

