-- ==== Sys2Proof/Machine/Cells.lean ====
section
/-! DEFINITION. Reading and writing an indexed array of integers: the form the memory (20_memory.md R50) and the
general-purpose registers (10_state.md R22) share. -/

namespace Sys2Proof.Machine

/-- What index `a` holds; an unlisted index holds 0 (R38). -/
def Cells.read (m : Cells) (a : Nat) : Int :=
  match m with
  | [] => 0
  | (b, v) :: rest => if a = b then v else Cells.read rest a

/-- Lists an index that is not listed yet, keeping indices in rising order. -/
def Cells.insert (m : Cells) (a : Nat) (v : Int) : Cells :=
  match m with
  | [] => [(a, v)]
  | (b, w) :: rest => if a < b then (a, v) :: (b, w) :: rest else (b, w) :: Cells.insert rest a v

/-- Unlists an index. -/
def Cells.erase (m : Cells) (a : Nat) : Cells :=
  m.filter fun c => c.1 ≠ a

/-- Writes index `a`: a 0 unlists it, any other value replaces its entry. -/
def Cells.write (m : Cells) (a : Nat) (v : Int) : Cells :=
  if v = 0 then Cells.erase m a else Cells.insert (Cells.erase m a) a v

end Sys2Proof.Machine
end

