-- ==== Sys2Proof/Machine/Memory.lean ====
section
/-! DEFINITION. The memory's operations (20_memory.md R50-R53) and the scratch-cell search (42_imul.md R144). -/

namespace Sys2Proof.Machine

/-- The address is a cell of the memory: `0 <= a < MEM_SIZE` (R51, R53). -/
abbrev inMemory (P : Params) (a : Int) : Prop := 0 ≤ a ∧ a < P.memSize

/-- `M[a]` of the state. -/
def State.cell (s : State) (a : Nat) : Int := Cells.read s.mem a

/-- `M[a] <- v`. -/
def State.setCell (s : State) (a : Nat) (v : Int) : State := { s with mem := Cells.write s.mem a v }

/-- `MemRead(a, 1)` (R51). -/
def memRead (P : Params) (a : Int) (s : State) : Except Condition Int :=
  if inMemory P a then .ok (s.cell a.toNat) else .error (.outOfBounds a)

/-- `MemWrite(a, 1, v)` (R52). -/
def memWrite (P : Params) (a v : Int) (s : State) : Except Condition State :=
  if inMemory P a then .ok (s.setCell a.toNat v) else .error (.outOfBounds a)

/-- The highest cell below `n` that holds 0 (R144). -/
def scratchBelow (m : Cells) : Nat → Option Nat
  | 0 => none
  | j + 1 => if Cells.read m j = 0 then some j else scratchBelow m j

/-- `scratch()` (R144): the scan from `MEM_SIZE - 1` down to 0. -/
def scratch (P : Params) (s : State) : Except Condition Nat :=
  match scratchBelow s.mem P.memSize with
  | some j => .ok j
  | none => .error .noScratchCell

end Sys2Proof.Machine
end

