-- ==== Sys2Proof/Machine/Ops.lean ====
section
/-! DEFINITION. The operations every meaning is made of: register access, the free values of an instruction boundary,
raising an error condition, halting, consuming an operand cell, and the two ways an instruction completes
(40_datapath_and_cycle.md R99-R110, 60_exceptions.md R195). The spec has no return from an exception (R199), so there is
none here. -/

namespace Sys2Proof.Machine

/-- The code of an error condition (R190); programs cannot see it. -/
def Condition.code : Condition → Nat
  | .outOfBounds _ => 1
  | .invalidRegister _ => 2
  | .noScratchCell => 3
  | .loadFormat _ => 4

/-- What a meaning answers. -/
abbrev Result := Host.Outcome State Fault Refusal

/-- `x[i]` (R5). -/
def State.x (s : State) (i : Nat) : Int := Cells.read s.gpr i

/-- `x[i] <- v` (R5). -/
def State.setX (s : State) (i : Nat) (v : Int) : State := { s with gpr := Cells.write s.gpr i v }

/-- The default general-purpose register, which `ldi`, `read` and `store` use (46_ldi_read_store.md). -/
abbrev defaultReg : Nat := 0

/-- A free value of this source for the current draw, within the range of R3 (notes/assumptions/2.md). -/
def draw (P : Params) (s : State) (source : FreeSource) : Int :=
  wrap P.width (Config.freeValue source s.draws)

/-- The hidden datapath state where the spec leaves it unspecified (R37). -/
def drawHidden (P : Params) (s : State) : Hidden where
  ext := draw P s .ext
  intA := draw P s .intA
  intB := draw P s .intB
  sel := draw P s .sel
  slot0 := draw P s .slot0
  slot1 := draw P s .slot1
  pending := draw P s .pending

/-- The program counter is given a value. -/
def State.setPc (s : State) (pc : Int) : State := { s with pc := pc }

/-- The state `raise c` leaves during EXECUTE (R195): the control state is `FAULTED(c)`; registers, memory and flags are
as they stand, with no rollback; `pc` and `ir` are unspecified. -/
def State.raised (P : Params) (c : Condition) (s : State) : State :=
  { s with
    ctl := .faulted c
    pc := draw P s .pc
    ir := draw P s .ir
    hid := drawHidden P s
    draws := s.draws + 1 }

/-- The state of a machine that halts on an undecodable opcode (R99): `pc`, `ir`, flags, registers and memory are as
they stand. -/
def State.stopped (P : Params) (s : State) : State :=
  { s with ctl := .halted, hid := drawHidden P s, draws := s.draws + 1 }

/-- The state after an instruction that completes with this `pc` (R99): `ctl` is FETCH, `ir` (R28) and the hidden state
(R37) are unspecified. -/
def State.completed (P : Params) (pc : Int) (s : State) : State :=
  { s with
    pc := pc
    ir := draw P s .ir
    ctl := .fetch
    hid := drawHidden P s
    draws := s.draws + 1 }

/-- `raise c` during EXECUTE (R195): taking an error condition. -/
def raise (P : Params) (c : Condition) (s : State) : Result := .next (s.raised P c)

/-- Goes on with the value of an operation that may raise, or raises its condition. -/
def attempt {α : Type} (P : Params) (s : State) (op : Except Condition α) (go : α → Result) : Result :=
  match op with
  | .ok a => go a
  | .error c => raise P c s

/-- The machine halts on an undecodable opcode (R99). -/
def halt (P : Params) (s : State) : Result := .next (s.stopped P)

/-- An instruction completes with this `pc` (R99). -/
def complete (P : Params) (pc : Int) (s : State) : Result := .next (s.completed P pc)

/-- `finish()` and the return to FETCH (R102). -/
def finish (P : Params) (s : State) : Result := complete P (s.pc + 1) s

/-- `pc <- target` and the return to FETCH: a taken branch (R103). -/
def jumpTo (P : Params) (target : Int) (s : State) : Result := complete P target s

/-- `checkReg(i)` (R24): the register an operand names. -/
def checkReg (P : Params) (i : Int) : Except Condition (Reg P) :=
  if h : 0 ≤ i ∧ i < P.ngpr then .ok ⟨i.toNat, (Int.toNat_lt h.1).2 h.2⟩ else .error (.invalidRegister i)

/-- The `pc` advance and the bounds check of `fetchOperand()` (R101). The value read comes with the decoded instruction,
so only the access itself is made here (notes/assumptions/10.md). -/
def fetchOperand (P : Params) (s : State) (go : State → Result) : Result :=
  attempt P (s.setPc (s.pc + 1)) (memRead P (s.pc + 1) s) fun _ => go (s.setPc (s.pc + 1))

/-- A register operand cell is consumed: `fetchOperand()`, then `checkReg` at once (R106). -/
def fetchRegister (P : Params) (id : Int) (s : State) (go : Reg P → State → Result) : Result :=
  fetchOperand P s fun s => attempt P s (checkReg P id) fun r => go r s

end Sys2Proof.Machine
end

