-- ==== Sys2Proof/Machine/Operands.lean ====
section
/-! DEFINITION. The nine operand formats (30_encoding.md R74): each consumes its operand cells in cell order, checking a
register id as soon as its cell is consumed (40_datapath_and_cycle.md R106 step 1), and goes on with the checked
operands. A memory, immediate or target operand is the cell's value as it stands (R72). Formats of one shape share a
definition: `MR` and `IR` consume a plain cell and then a register cell; `T`, `I` and `M` one plain cell. -/

namespace Sys2Proof.Machine

/-- Format `RR`: `regA`, `regB`. -/
def formRR (P : Params) (regA regB : Int) (s : State) (go : Reg P → Reg P → State → Result) : Result :=
  fetchRegister P regA s fun a s => fetchRegister P regB s fun b s => go a b s

/-- A plain cell and then a register cell: formats `MR` (an address) and `IR` (an immediate). -/
def formPlainReg (P : Params) (reg : Int) (s : State) (go : Reg P → State → Result) : Result :=
  fetchOperand P s fun s => fetchRegister P reg s go

/-- Format `RM`: a register cell and then an address cell. -/
def formRM (P : Params) (reg : Int) (s : State) (go : Reg P → State → Result) : Result :=
  fetchRegister P reg s fun a s => fetchOperand P s fun s => go a s

/-- Format `R`. -/
def formR (P : Params) (reg : Int) (s : State) (go : Reg P → State → Result) : Result :=
  fetchRegister P reg s go

/-- One plain cell: formats `T` (a target), `I` (an immediate) and `M` (an address). -/
def formPlain (P : Params) (s : State) (go : State → Result) : Result :=
  fetchOperand P s go

/-- Format `RRT`: `regA`, `regB` and a target cell. -/
def formRRT (P : Params) (regA regB : Int) (s : State) (go : Reg P → Reg P → State → Result) : Result :=
  formRR P regA regB s fun a b s => fetchOperand P s fun s => go a b s

/-- A result goes to a register and sets the flags, and the instruction falls through. -/
def resultToReg (P : Params) (dest : Nat) (r : Int) (s : State) : Result :=
  finish P ((s.setX dest r).setFlags r)

/-- A result goes to a memory cell and sets the flags, and the instruction falls through. -/
def resultToMem (P : Params) (dest : Int) (r : Int) (s : State) : Result :=
  attempt P s (memWrite P dest r s) fun s => finish P (s.setFlags r)

end Sys2Proof.Machine
end

