-- ==== Sys2Proof/Machine/AddSub.lean ====
section
/-! DEFINITION. Add and subtract (41_add_sub.md R120-R128). For each instruction: its meaning for any parameters of R2
(`<mnemonic>With`), and its meaning on this hardware (`exec<Mnemonic>`), the one the dispatch calls. Source 1 is the
first operand's value, source 2 the second's. -/

namespace Sys2Proof.Machine

/-- R120: `x[regA] <- wrap(x[regA] + x[regB])`. -/
def addRegRegWith (P : Params) (regA regB : RegId) (s : State) : Result :=
  formRR P regA regB s fun a b s => resultToReg P a (wrap P.width (s.x a + s.x b)) s

/-- R121: `x[reg] <- wrap(M[addr] + x[reg])`. -/
def addMemRegWith (P : Params) (addr : Addr) (reg : RegId) (s : State) : Result :=
  formPlainReg P reg s fun b s =>
  attempt P s (memRead P addr s) fun s1 => resultToReg P b (wrap P.width (s1 + s.x b)) s

/-- R122: `M[addr] <- wrap(x[reg] + M[addr])`. -/
def addRegMemWith (P : Params) (reg : RegId) (addr : Addr) (s : State) : Result :=
  formRM P reg s fun a s =>
  attempt P s (memRead P addr s) fun s2 => resultToMem P addr (wrap P.width (s.x a + s2)) s

/-- R123: `x[reg] <- wrap(imm + x[reg])`. -/
def addImmRegWith (P : Params) (imm : Imm) (reg : RegId) (s : State) : Result :=
  formPlainReg P reg s fun b s => resultToReg P b (wrap P.width (imm + s.x b)) s

/-- R124: `x[regA] <- wrap(x[regA] - x[regB])`. -/
def subRegRegWith (P : Params) (regA regB : RegId) (s : State) : Result :=
  formRR P regA regB s fun a b s => resultToReg P a (wrap P.width (s.x a - s.x b)) s

/-- R125: `x[reg] <- wrap(M[addr] - x[reg])`. -/
def subMemRegWith (P : Params) (addr : Addr) (reg : RegId) (s : State) : Result :=
  formPlainReg P reg s fun b s =>
  attempt P s (memRead P addr s) fun s1 => resultToReg P b (wrap P.width (s1 - s.x b)) s

/-- R126: `M[addr] <- wrap(x[reg] - M[addr])`. -/
def subRegMemWith (P : Params) (reg : RegId) (addr : Addr) (s : State) : Result :=
  formRM P reg s fun a s =>
  attempt P s (memRead P addr s) fun s2 => resultToMem P addr (wrap P.width (s.x a - s2)) s

/-- R127: `x[reg] <- wrap(imm - x[reg])`. -/
def subImmRegWith (P : Params) (imm : Imm) (reg : RegId) (s : State) : Result :=
  formPlainReg P reg s fun b s => resultToReg P b (wrap P.width (imm - s.x b)) s

/-- `addRegReg` on this hardware (R120). -/
def execAddRegReg (regA regB : RegId) (s : State) : Result := addRegRegWith Config.hardware regA regB s

/-- `addMemReg` on this hardware (R121). -/
def execAddMemReg (addr : Addr) (reg : RegId) (s : State) : Result := addMemRegWith Config.hardware addr reg s

/-- `addRegMem` on this hardware (R122). -/
def execAddRegMem (reg : RegId) (addr : Addr) (s : State) : Result := addRegMemWith Config.hardware reg addr s

/-- `addImmReg` on this hardware (R123). -/
def execAddImmReg (imm : Imm) (reg : RegId) (s : State) : Result := addImmRegWith Config.hardware imm reg s

/-- `subRegReg` on this hardware (R124). -/
def execSubRegReg (regA regB : RegId) (s : State) : Result := subRegRegWith Config.hardware regA regB s

/-- `subMemReg` on this hardware (R125). -/
def execSubMemReg (addr : Addr) (reg : RegId) (s : State) : Result := subMemRegWith Config.hardware addr reg s

/-- `subRegMem` on this hardware (R126). -/
def execSubRegMem (reg : RegId) (addr : Addr) (s : State) : Result := subRegMemWith Config.hardware reg addr s

/-- `subImmReg` on this hardware (R127). -/
def execSubImmReg (imm : Imm) (reg : RegId) (s : State) : Result := subImmRegWith Config.hardware imm reg s

end Sys2Proof.Machine
end

