-- ==== Sys2Proof/Machine/Imul.lean ====
section
/-! DEFINITION. Multiply by repeated addition (42_imul.md R140-R145). For each instruction: its meaning for any
parameters of R2, and its meaning on this hardware. The first operand's value is the multiplicand, the second's the
multiplier. -/

namespace Sys2Proof.Machine

/-- R141: `x[regA] <- mul(x[regA], x[regB])`. -/
def imulRegRegWith (P : Params) (regA regB : RegId) (s : State) : Result :=
  formRR P regA regB s fun a b s => resultToReg P a (mul P.width (s.x a) (s.x b)) s

/-- R142: `x[reg] <- mul(M[addr], x[reg])`; no scratch cell is used. -/
def imulMemRegWith (P : Params) (addr : Addr) (reg : RegId) (s : State) : Result :=
  formPlainReg P reg s fun b s =>
  attempt P s (memRead P addr s) fun s1 => resultToReg P b (mul P.width s1 (s.x b)) s

/-- What `imulRegMem` leaves in its scratch cell: the product, or a free value (R143, `IMUL_SCRATCH_FINAL`). -/
def scratchFinalValue (P : Params) (s : State) (product : Int) : Int :=
  match P.scratchFinal with
  | .product => product
  | .any => draw P s .scratch

/-- R143: `M[addr] <- mul(x[reg], M[addr])`. A multiplier of 0 gives 0 with no search; any other multiplier takes the
scratch cell of R144, which is overwritten. -/
def imulRegMemWith (P : Params) (reg : RegId) (addr : Addr) (s : State) : Result :=
  formRM P reg s fun a s =>
  attempt P s (memRead P addr s) fun s2 =>
  if s2 = 0 then resultToMem P addr 0 s
  else attempt P s (scratch P s) fun sc =>
    attempt P s (memWrite P sc (scratchFinalValue P s (mul P.width (s.x a) s2)) s) fun s' =>
    resultToMem P addr (mul P.width (s.x a) s2) s'

/-- `imulRegReg` on this hardware (R141). -/
def execImulRegReg (regA regB : RegId) (s : State) : Result := imulRegRegWith Config.hardware regA regB s

/-- `imulMemReg` on this hardware (R142). -/
def execImulMemReg (addr : Addr) (reg : RegId) (s : State) : Result := imulMemRegWith Config.hardware addr reg s

/-- `imulRegMem` on this hardware (R143). -/
def execImulRegMem (reg : RegId) (addr : Addr) (s : State) : Result := imulRegMemWith Config.hardware reg addr s

end Sys2Proof.Machine
end

