-- ==== Sys2Proof/Machine/Inc.lean ====
section
/-! DEFINITION. Increment (44_inc.md R160), for any parameters of R2 and on this hardware. -/

namespace Sys2Proof.Machine

/-- R160: `x[reg] <- wrap(x[reg] + 1)`. -/
def incRegWith (P : Params) (reg : RegId) (s : State) : Result :=
  formR P reg s fun a s => resultToReg P a (wrap P.width (s.x a + 1)) s

/-- `incReg` on this hardware (R160). -/
def execIncReg (reg : RegId) (s : State) : Result := incRegWith Config.hardware reg s

end Sys2Proof.Machine
end

