-- ==== Sys2Proof/Machine/Jumps.lean ====
section
/-! DEFINITION. Jumps (45_jumps.md R165-R172): the target is loaded unchecked, and no flag is written. For each
instruction: its meaning for any parameters of R2, and its meaning on this hardware. -/

namespace Sys2Proof.Machine

/-- `if taken then pc <- target else finish()` (R103). -/
def branch (P : Params) (taken : Bool) (target : Target) (s : State) : Result :=
  if taken then jumpTo P target s else finish P s

/-- R165: `pc <- target`. -/
def jmpWith (P : Params) (target : Target) (s : State) : Result :=
  formPlain P s fun s => jumpTo P target s

/-- R166: taken if `flags.Z = 1`. -/
def jzWith (P : Params) (target : Target) (s : State) : Result :=
  formPlain P s fun s => branch P (s.flags.getBit 0) target s

/-- R167: taken if `flags.N = 1`. -/
def jnWith (P : Params) (target : Target) (s : State) : Result :=
  formPlain P s fun s => branch P (s.flags.getBit 1) target s

/-- R168: taken if `flags.NZ = 1`. -/
def jnzWith (P : Params) (target : Target) (s : State) : Result :=
  formPlain P s fun s => branch P (s.flags.getBit 2) target s

/-- R169: taken if `x[regA] = x[regB]`. -/
def jeqWith (P : Params) (regA regB : RegId) (target : Target) (s : State) : Result :=
  formRRT P regA regB s fun a b s => branch P (decide (s.x a = s.x b)) target s

/-- R170: taken if `x[regB] > x[regA]`, the second register the greater (93_implementation_defined.md I8). -/
def jgtWith (P : Params) (regA regB : RegId) (target : Target) (s : State) : Result :=
  formRRT P regA regB s fun a b s => branch P (decide (s.x b > s.x a)) target s

/-- R171: taken if `x[regB] < x[regA]`, the second register the less (93_implementation_defined.md I8). -/
def jlwWith (P : Params) (regA regB : RegId) (target : Target) (s : State) : Result :=
  formRRT P regA regB s fun a b s => branch P (decide (s.x b < s.x a)) target s

/-- `jmp` on this hardware (R165). -/
def execJmp (target : Target) (s : State) : Result := jmpWith Config.hardware target s

/-- `jz` on this hardware (R166). -/
def execJz (target : Target) (s : State) : Result := jzWith Config.hardware target s

/-- `jn` on this hardware (R167). -/
def execJn (target : Target) (s : State) : Result := jnWith Config.hardware target s

/-- `jnz` on this hardware (R168). -/
def execJnz (target : Target) (s : State) : Result := jnzWith Config.hardware target s

/-- `jeq` on this hardware (R169). -/
def execJeq (regA regB : RegId) (target : Target) (s : State) : Result := jeqWith Config.hardware regA regB target s

/-- `jgt` on this hardware (R170). -/
def execJgt (regA regB : RegId) (target : Target) (s : State) : Result := jgtWith Config.hardware regA regB target s

/-- `jlw` on this hardware (R171). -/
def execJlw (regA regB : RegId) (target : Target) (s : State) : Result := jlwWith Config.hardware regA regB target s

end Sys2Proof.Machine
end

