-- ==== Sys2Proof/Machine/LdiReadStore.lean ====
section
/-! DEFINITION. Immediate load, memory read and memory store on the default register `x[0]` (46_ldi_read_store.md
R180-R182); the flags are unchanged. For each instruction: its meaning for any parameters of R2, and its meaning on this
hardware. -/

namespace Sys2Proof.Machine

/-- R180: `x[0] <- imm`. -/
def ldiWith (P : Params) (imm : Imm) (s : State) : Result :=
  formPlain P s fun s => finish P (s.setX defaultReg imm)

/-- R181: `x[0] <- M[addr]`. -/
def readWith (P : Params) (addr : Addr) (s : State) : Result :=
  formPlain P s fun s =>
  attempt P s (memRead P addr s) fun v => finish P (s.setX defaultReg v)

/-- R182: `M[addr] <- x[0]`. -/
def storeWith (P : Params) (addr : Addr) (s : State) : Result :=
  formPlain P s fun s =>
  attempt P s (memWrite P addr (s.x defaultReg) s) fun s => finish P s

/-- `ldi` on this hardware (R180). -/
def execLdi (imm : Imm) (s : State) : Result := ldiWith Config.hardware imm s

/-- `read` on this hardware (R181). -/
def execRead (addr : Addr) (s : State) : Result := readWith Config.hardware addr s

/-- `store` on this hardware (R182). -/
def execStore (addr : Addr) (s : State) : Result := storeWith Config.hardware addr s

end Sys2Proof.Machine
end

