-- ==== Sys2Proof/Machine/Move.lean ====
section
/-! DEFINITION. Move (43_move.md R150-R153): the first operand is the source, the second the destination; the value is
copied whole, with no `wrap`, and the flags are unchanged. For each instruction: its meaning for any parameters of R2,
and its meaning on this hardware. -/

namespace Sys2Proof.Machine

/-- R150: `x[regB] <- x[regA]`. -/
def moveRegRegWith (P : Params) (regA regB : RegId) (s : State) : Result :=
  formRR P regA regB s fun a b s => finish P (s.setX b (s.x a))

/-- R151: `x[reg] <- M[addr]`. -/
def moveMemRegWith (P : Params) (addr : Addr) (reg : RegId) (s : State) : Result :=
  formPlainReg P reg s fun b s =>
  attempt P s (memRead P addr s) fun v => finish P (s.setX b v)

/-- R152: `M[addr] <- x[reg]`. -/
def moveRegMemWith (P : Params) (reg : RegId) (addr : Addr) (s : State) : Result :=
  formRM P reg s fun a s =>
  attempt P s (memWrite P addr (s.x a) s) fun s => finish P s

/-- R153: `x[reg] <- imm`. -/
def moveImmRegWith (P : Params) (imm : Imm) (reg : RegId) (s : State) : Result :=
  formPlainReg P reg s fun b s => finish P (s.setX b imm)

/-- `moveRegReg` on this hardware (R150). -/
def execMoveRegReg (regA regB : RegId) (s : State) : Result := moveRegRegWith Config.hardware regA regB s

/-- `moveMemReg` on this hardware (R151). -/
def execMoveMemReg (addr : Addr) (reg : RegId) (s : State) : Result := moveMemRegWith Config.hardware addr reg s

/-- `moveRegMem` on this hardware (R152). -/
def execMoveRegMem (reg : RegId) (addr : Addr) (s : State) : Result := moveRegMemWith Config.hardware reg addr s

/-- `moveImmReg` on this hardware (R153). -/
def execMoveImmReg (imm : Imm) (reg : RegId) (s : State) : Result := moveImmRegWith Config.hardware imm reg s

end Sys2Proof.Machine
end

