-- ==== Sys2Proof/Syntax.lean ====
section
/-! DEFINITION. The instruction set: one constructor per row of spec/opcode_table.json (30_encoding.md R73), its operands
in cell order (R74), and the nine operand formats. -/

namespace Sys2Proof

/-- The instructions of R73. Each operand is the value of its operand cell, whole and unchecked (R72); the operands
stand in the order of their cells (R74). -/
inductive Instr where
  | addRegReg (regA regB : RegId)
  | addMemReg (addr : Addr) (reg : RegId)
  | addRegMem (reg : RegId) (addr : Addr)
  | addImmReg (imm : Imm) (reg : RegId)
  | subRegReg (regA regB : RegId)
  | subMemReg (addr : Addr) (reg : RegId)
  | subRegMem (reg : RegId) (addr : Addr)
  | subImmReg (imm : Imm) (reg : RegId)
  | imulRegReg (regA regB : RegId)
  | imulMemReg (addr : Addr) (reg : RegId)
  | imulRegMem (reg : RegId) (addr : Addr)
  | moveRegReg (regA regB : RegId)
  | moveMemReg (addr : Addr) (reg : RegId)
  | moveRegMem (reg : RegId) (addr : Addr)
  | moveImmReg (imm : Imm) (reg : RegId)
  | incReg (reg : RegId)
  | jmp (target : Target)
  | jz (target : Target)
  | jn (target : Target)
  | jnz (target : Target)
  | jeq (regA regB : RegId) (target : Target)
  | jgt (regA regB : RegId) (target : Target)
  | jlw (regA regB : RegId) (target : Target)
  | ldi (imm : Imm)
  | read (addr : Addr)
  | store (addr : Addr)
  deriving DecidableEq, Repr

/-- The row of R73 an instruction belongs to. -/
def Instr.mnemonic : Instr → Mnemonic
  | .addRegReg _ _ => .addRegReg
  | .addMemReg _ _ => .addMemReg
  | .addRegMem _ _ => .addRegMem
  | .addImmReg _ _ => .addImmReg
  | .subRegReg _ _ => .subRegReg
  | .subMemReg _ _ => .subMemReg
  | .subRegMem _ _ => .subRegMem
  | .subImmReg _ _ => .subImmReg
  | .imulRegReg _ _ => .imulRegReg
  | .imulMemReg _ _ => .imulMemReg
  | .imulRegMem _ _ => .imulRegMem
  | .moveRegReg _ _ => .moveRegReg
  | .moveMemReg _ _ => .moveMemReg
  | .moveRegMem _ _ => .moveRegMem
  | .moveImmReg _ _ => .moveImmReg
  | .incReg _ => .incReg
  | .jmp _ => .jmp
  | .jz _ => .jz
  | .jn _ => .jn
  | .jnz _ => .jnz
  | .jeq _ _ _ => .jeq
  | .jgt _ _ _ => .jgt
  | .jlw _ _ _ => .jlw
  | .ldi _ => .ldi
  | .read _ => .read
  | .store _ => .store

/-- The operand values in cell order (R74). -/
def Instr.operands : Instr → List Int
  | .addRegReg a b => [a, b]
  | .addMemReg m b => [m, b]
  | .addRegMem a m => [a, m]
  | .addImmReg i b => [i, b]
  | .subRegReg a b => [a, b]
  | .subMemReg m b => [m, b]
  | .subRegMem a m => [a, m]
  | .subImmReg i b => [i, b]
  | .imulRegReg a b => [a, b]
  | .imulMemReg m b => [m, b]
  | .imulRegMem a m => [a, m]
  | .moveRegReg a b => [a, b]
  | .moveMemReg m b => [m, b]
  | .moveRegMem a m => [a, m]
  | .moveImmReg i b => [i, b]
  | .incReg a => [a]
  | .jmp t => [t]
  | .jz t => [t]
  | .jn t => [t]
  | .jnz t => [t]
  | .jeq a b t => [a, b, t]
  | .jgt a b t => [a, b, t]
  | .jlw a b t => [a, b, t]
  | .ldi i => [i]
  | .read m => [m]
  | .store m => [m]

/-- The four kinds of operand cell (R72). -/
inductive OperandKind where
  /-- `r`: a register id. -/
  | reg
  /-- `m`: a memory address. -/
  | mem
  /-- `i`: an immediate. -/
  | imm
  /-- `t`: a jump target. -/
  | target
  deriving DecidableEq, Repr

/-- The nine instruction formats (R74). -/
inductive Format where
  | RR | MR | RM | IR | R | T | RRT | I | M
  deriving DecidableEq, Repr

/-- The kinds of a format's operand cells `c1, c2, c3`, in order (R74). -/
def Format.kinds : Format → List OperandKind
  | .RR => [.reg, .reg]
  | .MR => [.mem, .reg]
  | .RM => [.reg, .mem]
  | .IR => [.imm, .reg]
  | .R => [.reg]
  | .T => [.target]
  | .RRT => [.reg, .reg, .target]
  | .I => [.imm]
  | .M => [.mem]

/-- `k`, the number of operand cells (R73, R74). -/
def Format.k (f : Format) : Nat := f.kinds.length

/-- The format column of R73. -/
def Mnemonic.format : Mnemonic → Format
  | .addRegReg | .subRegReg | .imulRegReg | .moveRegReg => .RR
  | .addMemReg | .subMemReg | .imulMemReg | .moveMemReg => .MR
  | .addRegMem | .subRegMem | .imulRegMem | .moveRegMem => .RM
  | .addImmReg | .subImmReg | .moveImmReg => .IR
  | .incReg => .R
  | .jmp | .jz | .jn | .jnz => .T
  | .jeq | .jgt | .jlw => .RRT
  | .ldi => .I
  | .read | .store => .M

end Sys2Proof
end

