-- ==== Sys2Proof/Machine/ExecWith.lean ====
section
/-! DEFINITION. The dispatch for any parameters of R2 (40_datapath_and_cycle.md R99, R100). `exec` in Dispatch.lean is the
dispatch at the values of this hardware. -/

namespace Sys2Proof.Machine

/-- The meaning of an instruction in a block with these parameters. -/
def execWith (P : Params) (i : Instr) (s : State) : Result :=
  match i with
  | .addRegReg regA regB => addRegRegWith P regA regB s
  | .addMemReg addr reg => addMemRegWith P addr reg s
  | .addRegMem reg addr => addRegMemWith P reg addr s
  | .addImmReg imm reg => addImmRegWith P imm reg s
  | .subRegReg regA regB => subRegRegWith P regA regB s
  | .subMemReg addr reg => subMemRegWith P addr reg s
  | .subRegMem reg addr => subRegMemWith P reg addr s
  | .subImmReg imm reg => subImmRegWith P imm reg s
  | .imulRegReg regA regB => imulRegRegWith P regA regB s
  | .imulMemReg addr reg => imulMemRegWith P addr reg s
  | .imulRegMem reg addr => imulRegMemWith P reg addr s
  | .moveRegReg regA regB => moveRegRegWith P regA regB s
  | .moveMemReg addr reg => moveMemRegWith P addr reg s
  | .moveRegMem reg addr => moveRegMemWith P reg addr s
  | .moveImmReg imm reg => moveImmRegWith P imm reg s
  | .incReg reg => incRegWith P reg s
  | .jmp target => jmpWith P target s
  | .jz target => jzWith P target s
  | .jn target => jnWith P target s
  | .jnz target => jnzWith P target s
  | .jeq regA regB target => jeqWith P regA regB target s
  | .jgt regA regB target => jgtWith P regA regB target s
  | .jlw regA regB target => jlwWith P regA regB target s
  | .ldi imm => ldiWith P imm s
  | .read addr => readWith P addr s
  | .store addr => storeWith P addr s

end Sys2Proof.Machine
end

