-- ==== Sys2Proof/WellFormed.lean ====
section
/-! DEFINITION. Which instructions are well formed: every operand is a value of the machine (00_scope.md R3) and every
register operand names a general-purpose register (10_state.md R24, 30_encoding.md R72, R78). An ill-formed instruction
can still be fetched: its meaning raises `InvalidRegister` (R192). -/

namespace Sys2Proof

/-- The value check R72 makes on an operand cell of this kind, apart from the checks that wait for an access: only a
register id is restricted. -/
def OperandKind.accepts (P : Params) (kind : OperandKind) (v : Int) : Bool :=
  match kind with
  | .reg => decide (0 ≤ v ∧ v < P.ngpr)
  | .mem | .imm | .target => true

/-- Every operand is in the range of R3 and accepted by its kind (R72). -/
def Instr.wf (P : Params) (i : Instr) : Bool :=
  (i.mnemonic.format.kinds.zip i.operands).all fun c => P.width.holds c.2 && c.1.accepts P c.2

end Sys2Proof
end

