-- ==== Sys2Proof/Decode.lean ====
section
/-! DEFINITION. The decoder and, after it, the encoder (30_encoding.md R70-R77), and the layout in which the opcode
table's words reach the decoder (notes/assumptions/11.md). -/

namespace Sys2Proof

/-- Why a run of cells is no instruction. -/
inductive DecodeReject where
  /-- There is no opcode cell. -/
  | noOpcodeCell
  /-- The opcode cell's value is in no row of R73: not an error, the machine halts on it (R76). -/
  | undecodable (opcode : Int)
  /-- The cells end before the `k` operand cells of the row. -/
  | missingOperandCell (m : Mnemonic)
  deriving DecidableEq, Repr

/-- The row whose opcode equals the whole opcode cell (R71, R75); none if the value is undecodable (R76). -/
def mnemonicOf (P : Params) (opcode : Int) : Option Mnemonic :=
  Mnemonic.canonical.find? fun m => P.opcodeOf m == opcode

/-- Reads one operand cell (formats `R`, `T`, `I` and `M`). -/
def oneOperand (m : Mnemonic) (f : Int → Instr) : List Int → Except DecodeReject (Instr × List Int)
  | c1 :: rest => .ok (f c1, rest)
  | _ => .error (.missingOperandCell m)

/-- Reads two operand cells (formats `RR`, `MR`, `RM` and `IR`). -/
def twoOperands (m : Mnemonic) (f : Int → Int → Instr) : List Int → Except DecodeReject (Instr × List Int)
  | c1 :: c2 :: rest => .ok (f c1 c2, rest)
  | _ => .error (.missingOperandCell m)

/-- Reads three operand cells (format `RRT`). -/
def threeOperands (m : Mnemonic) (f : Int → Int → Int → Instr) :
    List Int → Except DecodeReject (Instr × List Int)
  | c1 :: c2 :: c3 :: rest => .ok (f c1 c2 c3, rest)
  | _ => .error (.missingOperandCell m)

/-- Reads the operand cells of a row, in cell order (R74). -/
def decodeOperands (m : Mnemonic) (cells : List Int) : Except DecodeReject (Instr × List Int) :=
  match m with
  | .addRegReg => twoOperands m .addRegReg cells
  | .addMemReg => twoOperands m .addMemReg cells
  | .addRegMem => twoOperands m .addRegMem cells
  | .addImmReg => twoOperands m .addImmReg cells
  | .subRegReg => twoOperands m .subRegReg cells
  | .subMemReg => twoOperands m .subMemReg cells
  | .subRegMem => twoOperands m .subRegMem cells
  | .subImmReg => twoOperands m .subImmReg cells
  | .imulRegReg => twoOperands m .imulRegReg cells
  | .imulMemReg => twoOperands m .imulMemReg cells
  | .imulRegMem => twoOperands m .imulRegMem cells
  | .moveRegReg => twoOperands m .moveRegReg cells
  | .moveMemReg => twoOperands m .moveMemReg cells
  | .moveRegMem => twoOperands m .moveRegMem cells
  | .moveImmReg => twoOperands m .moveImmReg cells
  | .incReg => oneOperand m .incReg cells
  | .jmp => oneOperand m .jmp cells
  | .jz => oneOperand m .jz cells
  | .jn => oneOperand m .jn cells
  | .jnz => oneOperand m .jnz cells
  | .jeq => threeOperands m .jeq cells
  | .jgt => threeOperands m .jgt cells
  | .jlw => threeOperands m .jlw cells
  | .ldi => oneOperand m .ldi cells
  | .read => oneOperand m .read cells
  | .store => oneOperand m .store cells

/-- Decodes the instruction at the head of a run of cells, with the cells after it (R70, R75). -/
def decode (P : Params) : List Int → Except DecodeReject (Instr × List Int)
  | [] => .error .noOpcodeCell
  | opcode :: rest =>
    match mnemonicOf P opcode with
    | none => .error (.undecodable opcode)
    | some m => decodeOperands m rest

/-- The cells of an instruction: its opcode cell and its operand cells (R70, R74). -/
def encode (P : Params) (i : Instr) : List Int := P.opcodeOf i.mnemonic :: i.operands

/-- How many bits of an opcode-table word stand for one cell (notes/assumptions/11.md: the spec gives a cell no
width). -/
def tableCellBits : Nat := 32

/-- The longest instruction has this many cells (R74, format `RRT`). -/
def longestInstr : Nat := 4

/-- Reads `tableCellBits` bits as a two's-complement integer. -/
def signedCell (v : Nat) : Int :=
  if v < 2 ^ (tableCellBits - 1) then v else (v : Int) - 2 ^ tableCellBits

/-- The four cells an opcode-table word stands for: cell `j` in bits `32 j + 31 .. 32 j`, every bit from `nbits` on
zero. -/
def tableCells (nbits w : Nat) : List Int :=
  (List.range longestInstr).map fun j =>
    signedCell (w % 2 ^ nbits / 2 ^ (tableCellBits * j) % 2 ^ tableCellBits)

/-- The instruction the decoder reads from an opcode-table word. -/
def decodeTableWord (nbits w : Nat) : Option Instr :=
  match decode Config.hardware (tableCells nbits w) with
  | .ok (i, _) => some i
  | .error _ => none

end Sys2Proof
end

