-- ==== Sys2Proof/Machine/Datapath.lean ====
section
/-! DEFINITION. The component contracts of the datapath (40_datapath_and_cycle.md R90-R96): buses, register transfers, the
register file and its demultiplexer, the ALU, the memory's bus interface, the micro-operations the control unit issues
one at a time, and the microprograms that branch on a flag. FETCH is made of them (R98); the instructions are given by their net effects (R105). -/

namespace Sys2Proof.Machine

/-- The four buses (R35). -/
inductive Bus where
  | ext | intA | intB | sel
  deriving DecidableEq, Repr

/-- `get(B)` (R90): reading does not change the bus. -/
def busGet (s : State) : Bus → Int
  | .ext => s.hid.ext
  | .intA => s.hid.intA
  | .intB => s.hid.intB
  | .sel => s.hid.sel

/-- `put(B, v)` (R90): the value held before is lost. -/
def busPut (b : Bus) (v : Int) (s : State) : State :=
  match b with
  | .ext => { s with hid := { s.hid with ext := v } }
  | .intA => { s with hid := { s.hid with intA := v } }
  | .intB => { s with hid := { s.hid with intB := v } }
  | .sel => { s with hid := { s.hid with sel := v } }

/-- The registers that are wired to buses (R25); FLAGS is not. -/
inductive WiredReg where
  | gpr (i : Nat)
  | pc
  | ir
  deriving DecidableEq, Repr

/-- The internal bus of a register (R25). -/
def WiredReg.intBus : WiredReg → Bus
  | .gpr _ => .intA
  | .pc | .ir => .intB

/-- The value a register holds. -/
def WiredReg.get (s : State) : WiredReg → Int
  | .gpr i => s.x i
  | .pc => s.pc
  | .ir => s.ir

/-- The register is given a value. -/
def WiredReg.set (r : WiredReg) (v : Int) (s : State) : State :=
  match r with
  | .gpr i => s.setX i v
  | .pc => s.setPc v
  | .ir => { s with ir := v }

/-- `read(Rg)` (R92): value to external bus. -/
def regRead (r : WiredReg) (s : State) : State := busPut .ext (r.get s) s

/-- `store(Rg)` (R92): external bus to value. -/
def regStore (r : WiredReg) (s : State) : State := r.set (busGet s .ext) s

/-- `internalRead(Rg)` (R92): value to internal bus. -/
def regInternalRead (r : WiredReg) (s : State) : State := busPut r.intBus (r.get s) s

/-- `internalStore(Rg)` (R92): internal bus to value. -/
def regInternalStore (r : WiredReg) (s : State) : State := r.set (busGet s r.intBus) s

/-- An entry of the register file (R21). -/
inductive RegEntry where
  | wired (r : WiredReg)
  | flags
  deriving DecidableEq, Repr

/-- The register file, by index (R21): the general-purpose registers, PC, IR, FLAGS. -/
def registerFile (P : Params) : List RegEntry :=
  (List.range P.ngpr).map (fun i => .wired (.gpr i)) ++ [.wired .pc, .wired .ir, .flags]

/-- The entry at a register-file index (R21). -/
def regEntryAt (P : Params) (index : Int) : Option RegEntry :=
  if 0 ≤ index then (registerFile P)[index.toNat]? else none

/-- The register names the assembler resolves (R9, R81); it resolves none for FLAGS. -/
def RegEntry.name : RegEntry → Option String
  | .wired (.gpr i) => some ("GPR" ++ toString i)
  | .wired .pc => some "PC"
  | .wired .ir => some "IR"
  | .flags => none

/-- The register-file index a register name resolves to (R81). -/
def registerId (P : Params) (name : String) : Option Int :=
  ((registerFile P).findIdx? fun e => e.name == some name).map fun i => (i : Int)

/-- The demultiplexer (R93): the control unit places a register id on the select line; an id that selects no
general-purpose register is refused before any transfer (R24). -/
def selectRegister (P : Params) (id : Int) (s : State) : Except Condition State :=
  match checkReg P id with
  | .ok _ => .ok (busPut .sel id s)
  | .error c => .error c

/-- The register the select line picks (R93). -/
def selected (P : Params) (s : State) : Except Condition WiredReg :=
  match checkReg P (busGet s .sel) with
  | .ok r => .ok (.gpr r)
  | .error c => .error c

/-- The ALU's two operand slots (R33). -/
inductive AluSlot where
  | slot0 | slot1
  deriving DecidableEq, Repr

/-- The ALU's two buses (R94). -/
inductive AluBus where
  | a | b
  deriving DecidableEq, Repr

/-- The internal bus behind an ALU port. -/
def AluBus.bus : AluBus → Bus
  | .a => .intA
  | .b => .intB

/-- What a slot holds. -/
def aluGet (s : State) : AluSlot → Int
  | .slot0 => s.hid.slot0
  | .slot1 => s.hid.slot1

/-- A slot is given a value. -/
def aluSet (slot : AluSlot) (v : Int) (s : State) : State :=
  match slot with
  | .slot0 => { s with hid := { s.hid with slot0 := v } }
  | .slot1 => { s with hid := { s.hid with slot1 := v } }

/-- A slot is loaded from one of the two buses (R94). -/
def aluLoad (slot : AluSlot) (port : AluBus) (s : State) : State := aluSet slot (busGet s port.bus) s

/-- A slot is written to one of the two buses (R94). -/
def aluUnload (slot : AluSlot) (port : AluBus) (s : State) : State := busPut port.bus (aluGet s slot) s

/-- `add()` (R94): the result goes to slot 1; the flags are not written. -/
def aluAdd (P : Params) (s : State) : State :=
  aluSet .slot1 (wrap P.width (aluGet s .slot0 + aluGet s .slot1)) s

/-- `sub()` (R94): the result goes to slot 1; the flags are not written. -/
def aluSub (P : Params) (s : State) : State :=
  aluSet .slot1 (wrap P.width (aluGet s .slot0 - aluGet s .slot1)) s

/-- `inc(s)` (R94): the result goes to the same slot; the flags are not written. -/
def aluInc (P : Params) (slot : AluSlot) (s : State) : State :=
  aluSet slot (wrap P.width (aluGet s slot + 1)) s

/-- `memRead()` (R95): the address on the external bus is overwritten by the datum. -/
def busMemRead (P : Params) (s : State) : Except Condition State :=
  match memRead P (busGet s .ext) s with
  | .ok v => .ok (busPut .ext v s)
  | .error c => .error c

/-- Phase 1 of `memStore()` (R95): the external bus holds the address. -/
def memStoreAddress (s : State) : State := { s with hid := { s.hid with pending := busGet s .ext } }

/-- Phase 2 of `memStore()` (R95): the external bus holds the datum. -/
def memStoreData (P : Params) (s : State) : Except Condition State :=
  memWrite P s.hid.pending (busGet s .ext) s

/-- `setBit` of one flag (R29, R92): the flag gets the value R30 gives it for a result. -/
def setFlagBit (bit : Fin 3) (r : Int) (s : State) : State :=
  { s with flags := s.flags.setBit bit ((flagsOf r).getBit bit) }

/-- The micro-operations the control unit issues (R96), but for `getBit`: a flag is read only to branch on it, which
`Microprogram` does. -/
inductive MicroOp where
  /-- `read(Rg)` of a register the control unit names. -/
  | read (r : WiredReg)
  /-- `store(Rg)` of a register the control unit names. -/
  | store (r : WiredReg)
  /-- `internalRead(Rg)` of a register the control unit names. -/
  | internalRead (r : WiredReg)
  /-- `internalStore(Rg)` of a register the control unit names. -/
  | internalStore (r : WiredReg)
  /-- The register id is placed on the select line (R93). DESIGN CHOICE: it is taken from the external bus, where
  `fetchOperand` leaves the operand cell's value (notes/assumptions/20.md). -/
  | select
  /-- `read(Rg)` of the selected register. -/
  | readSelected
  /-- `store(Rg)` of the selected register. -/
  | storeSelected
  /-- `internalRead(Rg)` of the selected register. -/
  | internalReadSelected
  /-- `internalStore(Rg)` of the selected register. -/
  | internalStoreSelected
  | aluLoad (slot : AluSlot) (port : AluBus)
  | aluUnload (slot : AluSlot) (port : AluBus)
  | aluAdd
  | aluSub
  | aluInc (slot : AluSlot)
  | memRead
  | memStoreAddress
  | memStoreData
  /-- The control unit sets the flags from the value on a bus (R30, R94). DESIGN CHOICE: the result is taken from a bus
  (notes/assumptions/12.md). -/
  | setFlags (b : Bus)
  /-- `setBit` of one flag, from the value on a bus (R29, R92); `setFlags` is this of all three (R30). DESIGN CHOICE: as
  for `setFlags`. -/
  | setBit (bit : Fin 3) (b : Bus)
  deriving DecidableEq, Repr

/-- One transfer with the selected register (R93). -/
def onSelected (P : Params) (f : WiredReg → State → State) (s : State) : Except Condition State :=
  match selected P s with
  | .ok r => .ok (f r s)
  | .error c => .error c

/-- One micro-operation (R90-R96): the state after it, or the condition it raises. The buses from which `select` takes its
id and the flag writes their result are the model's choice (notes/assumptions/20.md, 12.md). -/
def microStep (P : Params) (op : MicroOp) (s : State) : Except Condition State :=
  match op with
  | .read r => .ok (regRead r s)
  | .store r => .ok (regStore r s)
  | .internalRead r => .ok (regInternalRead r s)
  | .internalStore r => .ok (regInternalStore r s)
  | .select => selectRegister P (busGet s .ext) s
  | .readSelected => onSelected P regRead s
  | .storeSelected => onSelected P regStore s
  | .internalReadSelected => onSelected P regInternalRead s
  | .internalStoreSelected => onSelected P regInternalStore s
  | .aluLoad slot port => .ok (Machine.aluLoad slot port s)
  | .aluUnload slot port => .ok (Machine.aluUnload slot port s)
  | .aluAdd => .ok (Machine.aluAdd P s)
  | .aluSub => .ok (Machine.aluSub P s)
  | .aluInc slot => .ok (Machine.aluInc P slot s)
  | .memRead => busMemRead P s
  | .memStoreAddress => .ok (Machine.memStoreAddress s)
  | .memStoreData => Machine.memStoreData P s
  | .setFlags b => .ok (s.setFlags (busGet s b))
  | .setBit bit b => .ok (setFlagBit bit (busGet s b) s)

/-- Micro-operations in order, each complete before the next (R60, R109). A condition ends the sequence with the state
as the micro-operations before it left it: there is no rollback (R195). -/
def runMicro (P : Params) : List MicroOp → State → Except (Condition × State) State
  | [], s => .ok s
  | op :: ops, s =>
    match microStep P op s with
    | .ok t => runMicro P ops t
    | .error c => .error (c, s)

/-- A microprogram of the control unit (R96): micro-operations to its end, or up to a `getBit`. -/
inductive Microprogram where
  /-- The micro-operations, and then the end. -/
  | ops (ops : List MicroOp)
  /-- The micro-operations, and then `getBit(bit)`: the branch logic examines the flag directly, with no bus (R29, R92),
  and goes on with `set` if it is 1 and with `clear` if it is 0. -/
  | getBit (ops : List MicroOp) (bit : Fin 3) (set clear : Microprogram)
  deriving DecidableEq, Repr

/-- A microprogram in order, each micro-operation and each `getBit` complete before the next (R96, R109). -/
def runProgram (P : Params) : Microprogram → State → Except (Condition × State) State
  | .ops ops, s => runMicro P ops s
  | .getBit ops bit set clear, s =>
    match runMicro P ops s with
    | .ok t => if t.flags.getBit bit then runProgram P set t else runProgram P clear t
    | .error e => .error e

end Sys2Proof.Machine
end

