-- ==== Sys2Proof/Machine/Fetch.lean ====
section
/-! DEFINITION. FETCH (40_datapath_and_cycle.md R98), the cells the decoder reads, and placing cells in memory. -/

namespace Sys2Proof.Machine

/-- FETCH (R98) at bus level: `read(PC); memRead(); store(IR)`. It does not advance `pc`. The error is the state a fetch
out of bounds leaves: `pc` is the address fetched and `ir` keeps its value (R195). -/
def fetchOpcode (P : Params) (s : State) : Except State State :=
  match runMicro P [.read .pc, .memRead, .store .ir] s with
  | .ok t => .ok { t with ctl := .execute }
  | .error (c, t) => .error { t with ctl := .faulted c }

/-- What a fetch of cell `a` finds, and 0 where there is no such cell: the meaning raises `OutOfBounds` before such a 0
could be used (R101, notes/assumptions/10.md). -/
def cellOrZero (P : Params) (s : State) (a : Int) : Int :=
  if inMemory P a then s.cell a.toNat else 0

/-- The opcode in `ir` and the cells after `pc`, as many as the longest instruction has (R74, R99). -/
def instructionCells (P : Params) (s : State) : List Int :=
  [s.ir, cellOrZero P s (s.pc + 1), cellOrZero P s (s.pc + 2), cellOrZero P s (s.pc + 3)]

/-- Puts cells into memory at consecutive addresses, those that are in memory. -/
def placeCells (P : Params) : List Int → Int → State → State
  | [], _, s => s
  | v :: rest, a, s =>
    placeCells P rest (a + 1) (if inMemory P a then s.setCell a.toNat v else s)

end Sys2Proof.Machine
end

