-- ==== Sys2Proof/Machine/Cycle.lean ====
section
/-! DEFINITION. DECODE/EXECUTE and the instruction step (40_datapath_and_cycle.md R97-R99, R110), for any parameters of
R2. The dispatch is an argument: `stepWith` gives it `execWith`, and `step` (Step.lean) gives it `exec`. -/

namespace Sys2Proof.Machine

/-- DECODE/EXECUTE (R99): the instruction `ir` names is run on its operand cells; with no handler the machine halts.
Every row finds the cells it needs in `instructionCells`, so only an undecodable opcode is rejected. -/
def decodeExecute (P : Params) (dispatch : Instr → State → Result) (s : State) : Result :=
  match decode P (instructionCells P s) with
  | .ok (i, _) => dispatch i s
  | .error _ => halt P s

/-- The instruction step (R110): FETCH and then EXECUTE. From EXECUTE the rest of the cycle runs (R97); HALTED and
FAULTED have no step. -/
def cycle (P : Params) (dispatch : Instr → State → Result) (s : State) : Result :=
  match s.ctl with
  | .fetch =>
    match fetchOpcode P s with
    | .ok t => decodeExecute P dispatch t
    | .error t => .next t
  | .execute => decodeExecute P dispatch s
  | .halted => .fault .halted
  | .faulted c => .fault (.faulted c)

/-- One step of a block with these parameters (R2, R110). -/
def stepWith (P : Params) (s : State) : Result := cycle P (execWith P) s

end Sys2Proof.Machine
end

