-- ==== Sys2Proof/Machine/Dispatch.lean ====
section
/-! DEFINITION. The dispatch: "exactly one microprogram by a total, explicit opcode→handler mapping" (R99, R100). -/

namespace Sys2Proof.Machine

def exec (i : Instr) (s : State) : Host.Outcome State Fault Refusal :=
  match i with
  | .addRegReg regA regB => Sys2Proof.Machine.execAddRegReg regA regB s
  | .addMemReg addr reg => Sys2Proof.Machine.execAddMemReg addr reg s
  | .addRegMem reg addr => Sys2Proof.Machine.execAddRegMem reg addr s
  | .addImmReg imm reg => Sys2Proof.Machine.execAddImmReg imm reg s
  | .subRegReg regA regB => Sys2Proof.Machine.execSubRegReg regA regB s
  | .subMemReg addr reg => Sys2Proof.Machine.execSubMemReg addr reg s
  | .subRegMem reg addr => Sys2Proof.Machine.execSubRegMem reg addr s
  | .subImmReg imm reg => Sys2Proof.Machine.execSubImmReg imm reg s
  | .imulRegReg regA regB => Sys2Proof.Machine.execImulRegReg regA regB s
  | .imulMemReg addr reg => Sys2Proof.Machine.execImulMemReg addr reg s
  | .imulRegMem reg addr => Sys2Proof.Machine.execImulRegMem reg addr s
  | .moveRegReg regA regB => Sys2Proof.Machine.execMoveRegReg regA regB s
  | .moveMemReg addr reg => Sys2Proof.Machine.execMoveMemReg addr reg s
  | .moveRegMem reg addr => Sys2Proof.Machine.execMoveRegMem reg addr s
  | .moveImmReg imm reg => Sys2Proof.Machine.execMoveImmReg imm reg s
  | .incReg reg => Sys2Proof.Machine.execIncReg reg s
  | .jmp target => Sys2Proof.Machine.execJmp target s
  | .jz target => Sys2Proof.Machine.execJz target s
  | .jn target => Sys2Proof.Machine.execJn target s
  | .jnz target => Sys2Proof.Machine.execJnz target s
  | .jeq regA regB target => Sys2Proof.Machine.execJeq regA regB target s
  | .jgt regA regB target => Sys2Proof.Machine.execJgt regA regB target s
  | .jlw regA regB target => Sys2Proof.Machine.execJlw regA regB target s
  | .ldi imm => Sys2Proof.Machine.execLdi imm s
  | .read addr => Sys2Proof.Machine.execRead addr s
  | .store addr => Sys2Proof.Machine.execStore addr s

end Sys2Proof.Machine
end

