-- ==== Sys2Proof/Machine/Step.lean ====
section
/-! DEFINITION. The step of the machine (40_datapath_and_cycle.md R110) and the placing of an opcode-table word where the
next step fetches. -/

namespace Sys2Proof.Machine

/-- One step of the machine on this hardware (R110). -/
def step (s : State) : Host.Outcome State Fault Refusal := cycle Config.hardware exec s

/-- `s` with the instruction of an opcode-table word in the cells from `pc` on, ready to FETCH. It stands for the load of
R221 (notes/assumptions/6.md, 11.md). -/
def State.withFetchWord (s : State) (nbits w : Nat) : State :=
  placeCells Config.hardware (tableCells nbits w) s.pc { s with ctl := .fetch }

end Sys2Proof.Machine
end

