-- ==== Sys2Proof/Laws/PerInstr.lean ====
section
/-! SUPPORT. Facts about every instruction as syntax, one lemma per constructor. -/

namespace Sys2Proof.Laws

/-- The encoding of an instruction has one opcode cell and the `k` operand cells of its format, whatever the parameters
(30_encoding.md R70, R75). -/
def CellCount.Statement (i : Instr) : Prop :=
  ∀ P : Params, (encode P i).length = 1 + i.mnemonic.format.k

theorem CellCount.addRegReg (a b : Int) : CellCount.Statement (.addRegReg a b) := fun _ => rfl
theorem CellCount.addMemReg (a b : Int) : CellCount.Statement (.addMemReg a b) := fun _ => rfl
theorem CellCount.addRegMem (a b : Int) : CellCount.Statement (.addRegMem a b) := fun _ => rfl
theorem CellCount.addImmReg (a b : Int) : CellCount.Statement (.addImmReg a b) := fun _ => rfl
theorem CellCount.subRegReg (a b : Int) : CellCount.Statement (.subRegReg a b) := fun _ => rfl
theorem CellCount.subMemReg (a b : Int) : CellCount.Statement (.subMemReg a b) := fun _ => rfl
theorem CellCount.subRegMem (a b : Int) : CellCount.Statement (.subRegMem a b) := fun _ => rfl
theorem CellCount.subImmReg (a b : Int) : CellCount.Statement (.subImmReg a b) := fun _ => rfl
theorem CellCount.imulRegReg (a b : Int) : CellCount.Statement (.imulRegReg a b) := fun _ => rfl
theorem CellCount.imulMemReg (a b : Int) : CellCount.Statement (.imulMemReg a b) := fun _ => rfl
theorem CellCount.imulRegMem (a b : Int) : CellCount.Statement (.imulRegMem a b) := fun _ => rfl
theorem CellCount.moveRegReg (a b : Int) : CellCount.Statement (.moveRegReg a b) := fun _ => rfl
theorem CellCount.moveMemReg (a b : Int) : CellCount.Statement (.moveMemReg a b) := fun _ => rfl
theorem CellCount.moveRegMem (a b : Int) : CellCount.Statement (.moveRegMem a b) := fun _ => rfl
theorem CellCount.moveImmReg (a b : Int) : CellCount.Statement (.moveImmReg a b) := fun _ => rfl
theorem CellCount.incReg (a : Int) : CellCount.Statement (.incReg a) := fun _ => rfl
theorem CellCount.jmp (a : Int) : CellCount.Statement (.jmp a) := fun _ => rfl
theorem CellCount.jz (a : Int) : CellCount.Statement (.jz a) := fun _ => rfl
theorem CellCount.jn (a : Int) : CellCount.Statement (.jn a) := fun _ => rfl
theorem CellCount.jnz (a : Int) : CellCount.Statement (.jnz a) := fun _ => rfl
theorem CellCount.jeq (a b c : Int) : CellCount.Statement (.jeq a b c) := fun _ => rfl
theorem CellCount.jgt (a b c : Int) : CellCount.Statement (.jgt a b c) := fun _ => rfl
theorem CellCount.jlw (a b c : Int) : CellCount.Statement (.jlw a b c) := fun _ => rfl
theorem CellCount.ldi (a : Int) : CellCount.Statement (.ldi a) := fun _ => rfl
theorem CellCount.read (a : Int) : CellCount.Statement (.read a) := fun _ => rfl
theorem CellCount.store (a : Int) : CellCount.Statement (.store a) := fun _ => rfl

end Sys2Proof.Laws
end

