-- ==== Sys2Proof/Machine/Microprogram.lean ====
section
/-! DEFINITION. Bus-level microprograms for six instructions: one of each kind of data transfer, and the three jumps that test
a flag. The spec gives no
micro-operation sequence but FETCH's (40_datapath_and_cycle.md R98, R105): these are examples of sequences that reach the
net effects of R120, R166-R168, R181 and R182, chosen by the model (notes/assumptions/12.md). `step` does not run them. -/

namespace Sys2Proof.Machine

/-- The `pc` advance of R101 and R102, through an ALU slot and internal bus B. -/
def microAdvance (slot : AluSlot) : List MicroOp :=
  [.internalRead .pc, .aluLoad slot .b, .aluInc slot, .aluUnload slot .b, .internalStore .pc]

/-- `fetchOperand()` (R101): the operand is left on the external bus. -/
def microFetchOperand (slot : AluSlot) : List MicroOp :=
  microAdvance slot ++ [.read .pc, .memRead]

/-- A microprogram for `addRegReg` (R120). The id of the destination is staged in `ir`. -/
def microAddRegReg : List MicroOp :=
  microFetchOperand .slot0 ++
  [.store .ir, .select, .internalReadSelected, .aluLoad .slot0 .a] ++
  microFetchOperand .slot1 ++
  [.select, .internalReadSelected, .aluLoad .slot1 .a, .aluAdd, .aluUnload .slot1 .a,
   .read .ir, .select, .internalStoreSelected, .setFlags .intA] ++
  microAdvance .slot0

/-- A microprogram for `read` (R181). -/
def microRead : List MicroOp :=
  microFetchOperand .slot0 ++ [.memRead, .store (.gpr defaultReg)] ++ microAdvance .slot0

/-- A microprogram for `store` (R182), by the two-step store protocol of R95. -/
def microStore : List MicroOp :=
  microFetchOperand .slot0 ++ [.memStoreAddress, .read (.gpr defaultReg), .memStoreData] ++ microAdvance .slot0

/-- A microprogram for a jump on a flag (R103): `getBit` of the flag, and then `pc` is loaded with the target on the
external bus or advanced. -/
def microFlagJump (bit : Fin 3) : Microprogram :=
  .getBit (microFetchOperand .slot0) bit (.ops [.store .pc]) (.ops (microAdvance .slot0))

/-- A microprogram for `jz` (R166). -/
def microJz : Microprogram := microFlagJump 0

/-- A microprogram for `jn` (R167). -/
def microJn : Microprogram := microFlagJump 1

/-- A microprogram for `jnz` (R168). -/
def microJnz : Microprogram := microFlagJump 2

end Sys2Proof.Machine
end

