-- ==== Sys2Proof/Machine/Loader.lean ====
section
/-! DEFINITION. The loader (70_reset_and_hazards.md R221, 30_encoding.md R79): what the host does between reset and the
first FETCH. -/

namespace Sys2Proof.Machine

/-- One line of an object program (R79), after its text has been read: reading text is outside the block
(notes/assumptions/9.md). -/
inductive ObjectLine where
  | integer (v : Int)
  | notInteger
  deriving DecidableEq, Repr

/-- How a load ends (R194, R221): with the program in memory, or refused by a condition that is reported to the caller,
the block left unstarted. A refused load keeps the cells it had written (R195). -/
inductive LoadResult where
  | loaded (s : State)
  | refused (c : Condition) (s : State)
  deriving DecidableEq, Repr

/-- Loads lines from line number `j` on (R221): line `j` goes to cell `j`. -/
def loadFrom (P : Params) : List ObjectLine → Nat → State → LoadResult
  | [], _, s => .loaded s
  | .notInteger :: _, j, s => .refused (.loadFormat j) s
  | .integer v :: rest, j, s =>
    if P.width.holds v = false then .refused (.loadFormat j) s
    else if P.memSize ≤ j then .refused (.outOfBounds j) s
    else loadFrom P rest (j + 1) (s.setCell j v)

/-- `load(lines)` (R221), with the parameters as arguments. -/
def loadWith (P : Params) (program : List ObjectLine) (s : State) : LoadResult := loadFrom P program 0 s

/-- `load(lines)` on this hardware (R221). -/
def load (program : List ObjectLine) (s : State) : LoadResult := loadWith Config.hardware program s

/-- "read `memorySize`" (R223). -/
def memorySize (P : Params) : Nat := P.memSize

end Sys2Proof.Machine
end

