-- ==== Sys2Proof/Machine/Run.lean ====
section
/-! DEFINITION. The host's `start` (70_reset_and_hazards.md R223): the block runs `step` until `ctl` is HALTED or FAULTED,
under fuel (R228). -/

namespace Sys2Proof.Machine

/-- How a run under fuel ends: at a terminal control state, or out of fuel, which is no end of run (R228). -/
inductive RunResult where
  | stopped (s : State)
  | outOfFuel (s : State)
  deriving DecidableEq, Repr

/-- HALTED and FAULTED are terminal (R97). -/
def Ctl.terminal : Ctl → Bool
  | .fetch | .execute => false
  | .halted | .faulted _ => true

/-- Runs at most `fuel` steps, stopping where the control state is terminal (R223, R228). -/
def run (next : State → Result) : Nat → State → RunResult
  | 0, s => if s.ctl.terminal then .stopped s else .outOfFuel s
  | fuel + 1, s =>
    match next s with
    | .next t => run next fuel t
    | .fault _ => .stopped s
    | .refused _ => .stopped s

/-- The host's `start` of a block with these parameters (R2, R223). -/
def startWith (P : Params) (fuel : Nat) (s : State) : RunResult := run (stepWith P) fuel s

/-- The host's `start` on this hardware (R223). -/
def start (fuel : Nat) (s : State) : RunResult := run step fuel s

end Sys2Proof.Machine
end

