-- ==== Sys2Proof/Safety.lean ====
section
/-! DEFINITION. What counts as a safe state and a safe run, and the terms the statements use. -/

namespace Sys2Proof.Machine

/-- "A run ends normally when, and only when, `ctl = HALTED`" (R224). -/
abbrev State.EndedNormally (s : State) : Prop := s.ctl = .halted

/-- The run was aborted by this condition (R195). -/
abbrev State.AbortedBy (s : State) (c : Condition) : Prop := s.ctl = .faulted c

/-- Every listed index is below `n`. -/
abbrev Cells.below (n : Nat) (m : Cells) : Prop := ∀ c ∈ m, c.1 < n

/-- The flags are in one of the three states of R32, or hold their reset value 000 (R32, R38). -/
abbrev Flags.legal (f : Flags) : Prop :=
  f = ⟨false, false, false⟩ ∨ f = ⟨true, false, false⟩ ∨ f = ⟨false, false, true⟩ ∨ f = ⟨false, true, true⟩

/-- The invariant of a block with these parameters: the memory and the register file have their canonical form and lie
within `MEM_SIZE` (R50) and `NGPR` (R22), and the flags are legal (R32). -/
abbrev State.Inv (P : Params) (s : State) : Prop :=
  s.mem.wf ∧ s.mem.below P.memSize ∧ s.gpr.wf ∧ s.gpr.below P.ngpr ∧ s.flags.legal

/-- Every general-purpose register and every memory cell holds a value of the width (R3); `pc` and `ir` are not spoken of
(notes/assumptions/16.md). -/
abbrev State.InWidth (P : Params) (s : State) : Prop :=
  (∀ i : Nat, P.width.holds (s.x i) = true) ∧ ∀ a : Nat, P.width.holds (s.cell a) = true

/-- The `k` operand cells of an instruction whose opcode cell is at `pc` lie in memory (R70, R101); `k` is at least 1. -/
abbrev State.hasOperandCells (s : State) (k : Nat) : Prop :=
  inMemory Config.hardware (s.pc + 1) ∧ inMemory Config.hardware (s.pc + k)

/-- Two states agree on every register but `r`. -/
abbrev State.SameRegsBut (s : State) (r : Nat) (t : State) : Prop := ∀ i : Nat, i ≠ r → t.x i = s.x i

/-- Two states agree on every register. -/
abbrev State.SameRegs (s t : State) : Prop := ∀ i : Nat, t.x i = s.x i

/-- Two states agree on every cell that is not among those written. -/
abbrev State.SameCellsBut (s : State) (written : List Nat) (t : State) : Prop :=
  ∀ a : Nat, a ∉ written → t.cell a = s.cell a

/-- Two states agree on every cell. -/
abbrev State.SameCells (s t : State) : Prop := ∀ a : Nat, t.cell a = s.cell a

/-- The flags show this result: zero, negative, nonzero (R30). -/
abbrev State.ShowsFlagsOf (t : State) (r : Int) : Prop :=
  (t.flags.z = true ↔ r = 0) ∧ (t.flags.n = true ↔ r < 0) ∧ (t.flags.nz = true ↔ r ≠ 0)

/-- A meaning completes: a next state back at FETCH (R97), with this `pc`, of which `Q` holds. -/
def CompletesAs (r : Result) (pc : Int) (Q : State → Prop) : Prop :=
  ∃ t, r = .next t ∧ t.ctl = .fetch ∧ t.pc = pc ∧ Q t

/-- In a block with these parameters, the instruction completes with this `pc`, its destination holds the wrapped result,
and the flags show the wrapped result (R3, R30). -/
def GivesWrapped (P : Params) (i : Instr) (s : State) (pc : Int) (dest : State → Int) (r : Int) : Prop :=
  CompletesAs (execWith P i s) pc fun t => dest t = wrap P.width r ∧ t.ShowsFlagsOf (wrap P.width r)

/-- The instruction completes on this hardware: `exec` answers a next state back at FETCH (R97), with this `pc`, of which
`Q` holds. -/
def Completes (i : Instr) (s : State) (pc : Int) (Q : State → Prop) : Prop :=
  CompletesAs (exec i s) pc Q

/-- The instruction raises this condition on this hardware (R195): `exec` answers a next state that is FAULTED, with
registers, memory and flags as before. -/
def Raises (i : Instr) (s : State) (c : Condition) : Prop :=
  ∃ t, exec i s = .next t ∧ t.AbortedBy c ∧ s.SameRegs t ∧ s.SameCells t ∧ t.flags = s.flags

/-- The first condition met while the operand cells `pc + j`, `pc + j + 1`, … are consumed in order, each register id
checked when its cell is consumed (R101, R106 step 1, R197). -/
def operandFault (P : Params) (s : State) : List (OperandKind × Int) → Nat → Option Condition
  | [], _ => none
  | (kind, v) :: rest, j =>
    if ¬ inMemory P (s.pc + j) then some (.outOfBounds (s.pc + j))
    else if kind.accepts P v = false then some (.invalidRegister v)
    else operandFault P s rest (j + 1)

/-- `sc` is the cell the scratch search finds: the highest cell that holds 0 (R144). -/
abbrev State.ScratchCell (P : Params) (s : State) (sc : Nat) : Prop :=
  sc < P.memSize ∧ s.cell sc = 0 ∧ ∀ j, sc < j → j < P.memSize → s.cell j ≠ 0

end Sys2Proof.Machine

namespace Sys2Proof

open Sys2Proof.Machine

/-- The operands of an instruction with their kinds, in cell order (R72, R74). -/
def Instr.kindedOperands (i : Instr) : List (OperandKind × Int) := i.mnemonic.format.kinds.zip i.operands

/-- The instructions that call `setFlags` (R31). -/
def Instr.affectsFlags : Instr → Bool
  | .addRegReg _ _ | .addMemReg _ _ | .addRegMem _ _ | .addImmReg _ _ => true
  | .subRegReg _ _ | .subMemReg _ _ | .subRegMem _ _ | .subImmReg _ _ => true
  | .imulRegReg _ _ | .imulMemReg _ _ | .imulRegMem _ _ | .incReg _ => true
  | .moveRegReg _ _ | .moveMemReg _ _ | .moveRegMem _ _ | .moveImmReg _ _ => false
  | .jmp _ | .jz _ | .jn _ | .jnz _ | .jeq _ _ _ | .jgt _ _ _ | .jlw _ _ _ => false
  | .ldi _ | .read _ | .store _ => false

/-- The register an instruction's rule names as its destination (R120-R127, R141-R142, R150-R153, R160, R180-R181). -/
def Instr.destRegister : Instr → Option Int
  | .addRegReg regA _ | .subRegReg regA _ | .imulRegReg regA _ => some regA
  | .addMemReg _ reg | .subMemReg _ reg | .imulMemReg _ reg | .moveMemReg _ reg => some reg
  | .addImmReg _ reg | .subImmReg _ reg | .moveImmReg _ reg => some reg
  | .moveRegReg _ regB => some regB
  | .incReg reg => some reg
  | .ldi _ | .read _ => some (defaultReg : Int)
  | .addRegMem _ _ | .subRegMem _ _ | .imulRegMem _ _ | .moveRegMem _ _ | .store _ => none
  | .jmp _ | .jz _ | .jn _ | .jnz _ | .jeq _ _ _ | .jgt _ _ _ | .jlw _ _ _ => none

/-- The memory cell an instruction's rule names as its destination (R122, R126, R143, R152, R182). -/
def Instr.destCell : Instr → Option Int
  | .addRegMem _ addr | .subRegMem _ addr | .imulRegMem _ addr | .moveRegMem _ addr | .store addr => some addr
  | .addRegReg _ _ | .addMemReg _ _ | .addImmReg _ _ | .subRegReg _ _ | .subMemReg _ _ | .subImmReg _ _ => none
  | .imulRegReg _ _ | .imulMemReg _ _ | .moveRegReg _ _ | .moveMemReg _ _ | .moveImmReg _ _ | .incReg _ => none
  | .jmp _ | .jz _ | .jn _ | .jnz _ | .jeq _ _ _ | .jgt _ _ _ | .jlw _ _ _ => none
  | .ldi _ | .read _ => none

/-- Where a jump goes if it is taken in this state (R165-R171); none for a jump that is not taken and for every other
instruction. A register operand is the index of the register it names, once `checkReg` has passed it (R24). -/
def Instr.takenTarget (s : State) : Instr → Option Int
  | .jmp target => some target
  | .jz target => if s.flags.z then some target else none
  | .jn target => if s.flags.n then some target else none
  | .jnz target => if s.flags.nz then some target else none
  | .jeq regA regB target => if s.x regA.toNat = s.x regB.toNat then some target else none
  | .jgt regA regB target => if s.x regB.toNat > s.x regA.toNat then some target else none
  | .jlw regA regB target => if s.x regB.toNat < s.x regA.toNat then some target else none
  | .addRegReg _ _ | .addMemReg _ _ | .addRegMem _ _ | .addImmReg _ _ => none
  | .subRegReg _ _ | .subMemReg _ _ | .subRegMem _ _ | .subImmReg _ _ => none
  | .imulRegReg _ _ | .imulMemReg _ _ | .imulRegMem _ _ | .incReg _ => none
  | .moveRegReg _ _ | .moveMemReg _ _ | .moveRegMem _ _ | .moveImmReg _ _ => none
  | .ldi _ | .read _ | .store _ => none

end Sys2Proof

namespace Sys2Proof.Machine

/-- The operand cells of an instruction are consumed without a fault (R106 step 1). -/
abbrev State.ConsumesOperands (s : State) (i : Instr) : Prop :=
  operandFault Config.hardware s i.kindedOperands 1 = none

/-- Two states agree on everything a program can observe between instructions (R20, R28, R40): memory, registers, flags,
`pc` and `ctl`. They may differ in `ir`, the hidden state and the free values to come. -/
abbrev State.Agree (s t : State) : Prop :=
  s.mem = t.mem ∧ s.gpr = t.gpr ∧ s.flags = t.flags ∧ s.pc = t.pc ∧ s.ctl = t.ctl

end Sys2Proof.Machine
end

