-- ==== Sys2Proof/Certificates/Slice0/Obligations.lean ====
section
/-! DEFINITION. The statements about this hardware that are to be proved. Each docstring names the rules of spec/ it
rests on. `Completes`, `Raises` and the words of the frames (`SameRegsBut`, `SameCells`, …) stand in Safety.lean. -/

open Sys2Proof Sys2Proof.Machine

/-! ### Encoding -/

/-- R70, R71, R74, R75: decoding the cells of any instruction, operands of every value, gives it back with the cells
after it, for every legal `OPCODE_OF` (R2). -/
def Obligations.DecodeOfEncodeIsIdentity : Prop :=
  ∀ (P : Params) (i : Instr) (rest : List Int), P.Legal → decode P (encode P i ++ rest) = .ok (i, rest)

/-- R70, R71, R75: cells that decode to an instruction are the cells of that instruction, so no two runs of cells of one
length decode to the same instruction and no cell of an instruction is dropped. -/
def Obligations.EncodeOfDecodeIsIdentity : Prop :=
  ∀ (P : Params) (cells : List Int) (i : Instr) (rest : List Int),
    decode P cells = .ok (i, rest) → cells = encode P i ++ rest

/-- R2, R71, R73: the parameters of this hardware are legal and have the values R2 gives them; `OPCODE_OF` is the opcode
column of R73, and every value from 0 to 25 is the opcode of a mnemonic. -/
def Obligations.HardwareParametersAreLegal : Prop :=
  Config.hardware.Legal ∧ Config.hardware.memSize = 128 ∧ Config.hardware.ngpr = 4 ∧ Config.hardware.width = .inf ∧
  Config.hardware.scratchFinal = .product ∧
  (∀ m : Mnemonic, 0 ≤ Config.hardware.opcodeOf m ∧ Config.hardware.opcodeOf m ≤ 25) ∧
  (∀ v : Int, 0 ≤ v → v ≤ 25 → ∃ m, mnemonicOf Config.hardware v = some m ∧ Config.hardware.opcodeOf m = v) ∧
  ∀ row ∈ ([(.addRegReg, 0), (.addMemReg, 1), (.addRegMem, 2), (.addImmReg, 3), (.subRegReg, 4), (.subMemReg, 5),
      (.subRegMem, 6), (.subImmReg, 7), (.imulRegReg, 8), (.imulMemReg, 9), (.imulRegMem, 10), (.moveRegReg, 11),
      (.moveMemReg, 12), (.moveRegMem, 13), (.moveImmReg, 14), (.incReg, 15), (.jmp, 16), (.jz, 17), (.jn, 18),
      (.jnz, 19), (.jeq, 20), (.jgt, 21), (.jlw, 22), (.ldi, 23), (.read, 24), (.store, 25)] : List (Mnemonic × Int)),
    Config.hardware.opcodeOf row.1 = row.2

/-- R73, R74: words written out from the opcode map and the formats, one for each instruction, decode to the instruction
they stand for and leave the cell after it. -/
def Obligations.SpecEncodingsDecode : Prop :=
  ∀ row ∈ ([([0, 2, 3], .addRegReg 2 3), ([1, 100, 2], .addMemReg 100 2), ([2, 1, 120], .addRegMem 1 120),
      ([3, 5, 0], .addImmReg 5 0), ([4, 0, 1], .subRegReg 0 1), ([5, 100, 1], .subMemReg 100 1),
      ([6, 2, 127], .subRegMem 2 127), ([7, 10, 3], .subImmReg 10 3), ([8, 0, 1], .imulRegReg 0 1),
      ([9, 100, 1], .imulMemReg 100 1), ([10, 1, 126], .imulRegMem 1 126), ([11, 0, 3], .moveRegReg 0 3),
      ([12, 100, 2], .moveMemReg 100 2), ([13, 1, 110], .moveRegMem 1 110), ([14, -1, 2], .moveImmReg (-1) 2),
      ([15, 2], .incReg 2), ([16, 20], .jmp 20), ([17, 12], .jz 12), ([18, 14], .jn 14), ([19, 9], .jnz 9),
      ([20, 0, 1, 40], .jeq 0 1 40), ([21, 0, 1, 22], .jgt 0 1 22), ([22, 0, 1, 50], .jlw 0 1 50),
      ([23, 10], .ldi 10), ([24, 100], .read 100), ([25, 100], .store 100)] : List (List Int × Instr)),
    decode Config.hardware (row.1 ++ [-1]) = .ok (row.2, [-1])

/-- R70, R75: an instruction has `1 + k` cells. -/
def Obligations.EncodingHasOneOpcodeCellAndItsOperands : Prop := ∀ i : Instr, Laws.CellCount.Statement i

/-! ### The instruction step -/

/-- R98: FETCH loads the cell at `pc` into `ir`, goes to EXECUTE and does not advance `pc`; outside memory it raises
`OutOfBounds(pc)`. Registers, memory and flags are unchanged. Its bus-level form is `read(PC); memRead(); store(IR)`. -/
def Obligations.FetchLoadsTheOpcode : Prop :=
  ∀ (P : Params) (s : State),
    (inMemory P s.pc → ∃ t, fetchOpcode P s = .ok t ∧ t.ir = s.cell s.pc.toNat ∧ t.ctl = .execute ∧ t.pc = s.pc ∧
      s.SameRegs t ∧ s.SameCells t ∧ t.flags = s.flags) ∧
    (¬ inMemory P s.pc → ∃ t, fetchOpcode P s = .error t ∧ t.AbortedBy (.outOfBounds s.pc) ∧ t.pc = s.pc ∧
      t.ir = s.ir ∧ s.SameRegs t ∧ s.SameCells t ∧ t.flags = s.flags) ∧
    (∀ t, runMicro P [.read .pc, .memRead, .store .ir] s = .ok t → fetchOpcode P s = .ok { t with ctl := .execute })

/-- R98, R99, R110: when the cells at `pc` decode to an instruction, the step runs `exec` of it on the state FETCH leaves.
A cell outside memory stands as 0 among the cells decoded; `exec` raises before it could use such a cell. -/
def Obligations.StepRunsTheDecodedInstruction : Prop :=
  ∀ (s : State) (i : Instr) (rest : List Int), s.ctl = .fetch → inMemory Config.hardware s.pc →
    decode Config.hardware [s.cell s.pc.toNat, cellOrZero Config.hardware s (s.pc + 1),
      cellOrZero Config.hardware s (s.pc + 2), cellOrZero Config.hardware s (s.pc + 3)] = .ok (i, rest) →
    ∃ t, fetchOpcode Config.hardware s = .ok t ∧ step s = exec i t ∧ t.ir = s.cell s.pc.toNat ∧ t.ctl = .execute ∧
      t.pc = s.pc ∧ t.gpr = s.gpr ∧ t.mem = s.mem ∧ t.flags = s.flags

/-- R2, R98, R99, R110: the same in a block with any parameters, whose step runs `execWith`; and at the parameters of this
hardware that block is the one `exec`, `step` and `start` are. -/
def Obligations.StepAtAnyParametersRunsTheDecodedInstruction : Prop :=
  (∀ (P : Params) (s : State) (i : Instr) (rest : List Int), s.ctl = .fetch → inMemory P s.pc →
    decode P [s.cell s.pc.toNat, cellOrZero P s (s.pc + 1), cellOrZero P s (s.pc + 2), cellOrZero P s (s.pc + 3)] =
      .ok (i, rest) →
    ∃ t, fetchOpcode P s = .ok t ∧ stepWith P s = execWith P i t ∧ t.ir = s.cell s.pc.toNat ∧ t.ctl = .execute ∧
      t.pc = s.pc ∧ t.gpr = s.gpr ∧ t.mem = s.mem ∧ t.flags = s.flags) ∧
  (∀ (i : Instr) (s : State), execWith Config.hardware i s = exec i s) ∧
  (∀ s : State, stepWith Config.hardware s = step s) ∧
  ∀ (fuel : Nat) (s : State), startWith Config.hardware fuel s = start fuel s

/-- R195 (a fault raised at FETCH), R110: a step at an address outside memory leaves the machine FAULTED with `pc` the
address fetched and everything else a program can observe unchanged. -/
def Obligations.FetchOutsideMemoryAborts : Prop :=
  ∀ s : State, s.ctl = .fetch → ¬ inMemory Config.hardware s.pc →
    ∃ t, step s = .next t ∧ t.AbortedBy (.outOfBounds s.pc) ∧ t.pc = s.pc ∧ t.ir = s.ir ∧ s.SameRegs t ∧
      s.SameCells t ∧ t.flags = s.flags

/-- R76, R99: with the opcode cell in memory, the step halts exactly when its value is below 0 or above 25, and then
`pc`, registers, flags and memory are unchanged and `ir` holds the value. -/
def Obligations.HaltsExactlyOnUndecodableOpcodes : Prop :=
  ∀ s : State, s.ctl = .fetch → inMemory Config.hardware s.pc →
    ((s.cell s.pc.toNat < 0 ∨ 25 < s.cell s.pc.toNat) →
      ∃ t, step s = .next t ∧ t.EndedNormally ∧ t.pc = s.pc ∧ t.ir = s.cell s.pc.toNat ∧ s.SameRegs t ∧
        s.SameCells t ∧ t.flags = s.flags) ∧
    (0 ≤ s.cell s.pc.toNat → s.cell s.pc.toNat ≤ 25 → ∀ t, step s = .next t → ¬ t.EndedNormally)

/-- R97, R110: HALTED and FAULTED have no step. -/
def Obligations.TerminalStatesHaveNoStep : Prop :=
  ∀ (s : State), (s.EndedNormally → step s = .fault .halted) ∧ ∀ c, s.AbortedBy c → step s = .fault (.faulted c)

/-- R97, R105: every instruction, on any operands and in any state, answers a next state, which is back at FETCH or
FAULTED: no instruction stops the model, and none halts (R208). -/
def Obligations.EveryInstructionGoesToFetchOrFaulted : Prop :=
  ∀ (i : Instr) (s : State), ∃ t, exec i s = .next t ∧ (t.ctl = .fetch ∨ ∃ c, t.AbortedBy c)

/-- R223, R224: a run ends only in HALTED or FAULTED. -/
def Obligations.RunsStopOnlyAtTerminalStates : Prop :=
  ∀ (fuel : Nat) (s t : State), start fuel s = .stopped t → t.EndedNormally ∨ ∃ c, t.AbortedBy c

/-! ### Add and subtract -/

/-- R120, R124 with R128, R30, R104, R108: register and register, the first register the destination. -/
def Obligations.AddSubRegRegCompute : Prop :=
  ∀ (a b : Reg Config.hardware) (s : State), s.hasOperandCells 2 →
    Completes (.addRegReg a.id b.id) s (s.pc + 3) (fun t =>
      t.x a = s.x a + s.x b ∧ t.ShowsFlagsOf (s.x a + s.x b) ∧ s.SameRegsBut a t ∧ s.SameCells t) ∧
    Completes (.subRegReg a.id b.id) s (s.pc + 3) (fun t =>
      t.x a = s.x a - s.x b ∧ t.ShowsFlagsOf (s.x a - s.x b) ∧ s.SameRegsBut a t ∧ s.SameCells t)

/-- R121, R125 with R128, R30, R104, R108: memory and register, the register the destination; the subtraction is memory
minus register. -/
def Obligations.AddSubMemRegCompute : Prop :=
  ∀ (m : Int) (b : Reg Config.hardware) (s : State), s.hasOperandCells 2 → inMemory Config.hardware m →
    Completes (.addMemReg m b.id) s (s.pc + 3) (fun t =>
      t.x b = s.cell m.toNat + s.x b ∧ t.ShowsFlagsOf (s.cell m.toNat + s.x b) ∧ s.SameRegsBut b t ∧ s.SameCells t) ∧
    Completes (.subMemReg m b.id) s (s.pc + 3) (fun t =>
      t.x b = s.cell m.toNat - s.x b ∧ t.ShowsFlagsOf (s.cell m.toNat - s.x b) ∧ s.SameRegsBut b t ∧ s.SameCells t)

/-- R122, R126 with R128, R30, R104, R108: register and memory, the memory cell the destination; the subtraction is
register minus memory. -/
def Obligations.AddSubRegMemCompute : Prop :=
  ∀ (a : Reg Config.hardware) (m : Int) (s : State), s.hasOperandCells 2 → inMemory Config.hardware m →
    Completes (.addRegMem a.id m) s (s.pc + 3) (fun t =>
      t.cell m.toNat = s.x a + s.cell m.toNat ∧ t.ShowsFlagsOf (s.x a + s.cell m.toNat) ∧ s.SameRegs t ∧
        s.SameCellsBut [m.toNat] t) ∧
    Completes (.subRegMem a.id m) s (s.pc + 3) (fun t =>
      t.cell m.toNat = s.x a - s.cell m.toNat ∧ t.ShowsFlagsOf (s.x a - s.cell m.toNat) ∧ s.SameRegs t ∧
        s.SameCellsBut [m.toNat] t)

/-- R123, R127 with R128, R30, R104, R108: immediate and register, the register the destination; the subtraction is
immediate minus register. -/
def Obligations.AddSubImmRegCompute : Prop :=
  ∀ (imm : Int) (b : Reg Config.hardware) (s : State), s.hasOperandCells 2 →
    Completes (.addImmReg imm b.id) s (s.pc + 3) (fun t =>
      t.x b = imm + s.x b ∧ t.ShowsFlagsOf (imm + s.x b) ∧ s.SameRegsBut b t ∧ s.SameCells t) ∧
    Completes (.subImmReg imm b.id) s (s.pc + 3) (fun t =>
      t.x b = imm - s.x b ∧ t.ShowsFlagsOf (imm - s.x b) ∧ s.SameRegsBut b t ∧ s.SameCells t)

/-- R3, R30, R120-R128, R141-R144, R160 in a block with any parameters (R2): the results of add, subtract, multiply and
increment are the wrapped exact results, and the flags show the wrapped result. The operands are values of the width, as
R3 says every value is (notes/assumptions/18.md). The `pc` is that of R101 and R102 with no `wrap` on `pc + 1`, which is
the model's choice at a bounded width (notes/assumptions/16.md). That the multiply is the wrapped product is the identity 42_imul.md
derives for its loop, "For every `x` and `n`, and for every `WIDTH`, `mul(x, n) = wrap(x * n)`"
(notes/assumptions/17.md). -/
def Obligations.ArithmeticWrapsAtEveryWidth : Prop :=
  ∀ (P : Params) (a b : Reg P) (m : Int) (imm : Int) (s : State),
    inMemory P (s.pc + 1) → inMemory P (s.pc + 2) → inMemory P m → s.InWidth P → P.width.holds imm = true →
    GivesWrapped P (.addRegReg a.id b.id) s (s.pc + 3) (·.x a) (s.x a + s.x b) ∧
    GivesWrapped P (.subRegReg a.id b.id) s (s.pc + 3) (·.x a) (s.x a - s.x b) ∧
    GivesWrapped P (.addMemReg m b.id) s (s.pc + 3) (·.x b) (s.cell m.toNat + s.x b) ∧
    GivesWrapped P (.subMemReg m b.id) s (s.pc + 3) (·.x b) (s.cell m.toNat - s.x b) ∧
    GivesWrapped P (.addRegMem a.id m) s (s.pc + 3) (·.cell m.toNat) (s.x a + s.cell m.toNat) ∧
    GivesWrapped P (.subRegMem a.id m) s (s.pc + 3) (·.cell m.toNat) (s.x a - s.cell m.toNat) ∧
    GivesWrapped P (.addImmReg imm b.id) s (s.pc + 3) (·.x b) (imm + s.x b) ∧
    GivesWrapped P (.subImmReg imm b.id) s (s.pc + 3) (·.x b) (imm - s.x b) ∧
    GivesWrapped P (.imulRegReg a.id b.id) s (s.pc + 3) (·.x a) (s.x a * s.x b) ∧
    GivesWrapped P (.imulMemReg m b.id) s (s.pc + 3) (·.x b) (s.cell m.toNat * s.x b) ∧
    GivesWrapped P (.incReg a.id) s (s.pc + 2) (·.x a) (s.x a + 1) ∧
    (s.cell m.toNat = 0 →
      CompletesAs (execWith P (.imulRegMem a.id m) s) (s.pc + 3) (fun t =>
        t.cell m.toNat = 0 ∧ t.ShowsFlagsOf 0 ∧ s.SameRegs t ∧ s.SameCellsBut [m.toNat] t)) ∧
    (s.cell m.toNat ≠ 0 → ∀ sc, s.ScratchCell P sc →
      CompletesAs (execWith P (.imulRegMem a.id m) s) (s.pc + 3) (fun t =>
        t.cell m.toNat = wrap P.width (s.x a * s.cell m.toNat) ∧
        (P.scratchFinal = .product → t.cell sc = wrap P.width (s.x a * s.cell m.toNat)) ∧ sc ≠ m.toNat ∧
        t.ShowsFlagsOf (wrap P.width (s.x a * s.cell m.toNat)) ∧ s.SameRegs t ∧ s.SameCellsBut [m.toNat, sc] t))

/-- R3: at `WIDTH = W`, `wrap` answers the value of the range that is congruent to its argument modulo `2^W`, and leaves
a value of the range as it is. -/
def Obligations.WrapIsTwosComplement : Prop :=
  ∀ (w : Nat) (v : Int), 2 ≤ w →
    (Width.bits w).holds (wrap (.bits w) v) = true ∧ (2 ^ w : Int) ∣ (wrap (.bits w) v - v) ∧
    ((Width.bits w).holds v = true → wrap (.bits w) v = v)

/-! ### Multiply and increment -/

/-- R141, R142 with R30, R104, R108. That the loop gives the product is the identity 42_imul.md derives
(notes/assumptions/17.md). -/
def Obligations.ImulToRegisterComputes : Prop :=
  ∀ (a b : Reg Config.hardware) (m : Int) (s : State), s.hasOperandCells 2 →
    Completes (.imulRegReg a.id b.id) s (s.pc + 3) (fun t =>
      t.x a = s.x a * s.x b ∧ t.ShowsFlagsOf (s.x a * s.x b) ∧ s.SameRegsBut a t ∧ s.SameCells t) ∧
    (inMemory Config.hardware m →
      Completes (.imulMemReg m b.id) s (s.pc + 3) (fun t =>
        t.x b = s.cell m.toNat * s.x b ∧ t.ShowsFlagsOf (s.cell m.toNat * s.x b) ∧ s.SameRegsBut b t ∧ s.SameCells t))

/-- R143, R144 with R30, R104, R108: a multiplier of 0 gives 0 with no scratch cell; any other multiplier writes the
product to the highest cell that holds 0 and to the destination, and to nothing else. That the loop gives the product is
the identity 42_imul.md derives (notes/assumptions/17.md). -/
def Obligations.ImulRegMemComputes : Prop :=
  ∀ (a : Reg Config.hardware) (m : Int) (s : State), s.hasOperandCells 2 → inMemory Config.hardware m →
    (s.cell m.toNat = 0 →
      Completes (.imulRegMem a.id m) s (s.pc + 3) (fun t =>
        t.cell m.toNat = 0 ∧ t.ShowsFlagsOf 0 ∧ s.SameRegs t ∧ s.SameCellsBut [m.toNat] t)) ∧
    (s.cell m.toNat ≠ 0 → ∀ sc, s.ScratchCell Config.hardware sc →
      Completes (.imulRegMem a.id m) s (s.pc + 3) (fun t =>
        t.cell m.toNat = s.x a * s.cell m.toNat ∧ t.cell sc = s.x a * s.cell m.toNat ∧ sc ≠ m.toNat ∧
        t.ShowsFlagsOf (s.x a * s.cell m.toNat) ∧ s.SameRegs t ∧ s.SameCellsBut [m.toNat, sc] t))

/-- R193: `NoScratchCell` is raised only by `imulRegMem`, only when its multiplier is not 0 and no cell holds 0; and there
it is raised (R144). -/
def Obligations.NoScratchCellExactly : Prop :=
  (∀ (i : Instr) (s t : State), exec i s = .next t → t.AbortedBy .noScratchCell →
    ∃ reg addr, i = .imulRegMem reg addr ∧ s.cell addr.toNat ≠ 0 ∧
      ∀ j, j < Config.hardware.memSize → s.cell j ≠ 0) ∧
  (∀ (a : Reg Config.hardware) (m : Int) (s : State), s.hasOperandCells 2 → inMemory Config.hardware m →
    (∀ j, j < Config.hardware.memSize → s.cell j ≠ 0) → Raises (.imulRegMem a.id m) s .noScratchCell)

/-- R143, R144, R2 with `IMUL_SCRATCH_FINAL = any`, and R30, R104, R108: whatever is left in the scratch cell
(notes/assumptions/5.md), the destination holds the product and no other cell changes. That the loop gives the product is
the identity 42_imul.md derives (notes/assumptions/17.md). -/
def Obligations.ImulRegMemWithAnyScratchValue : Prop :=
  ∀ (a : Reg Config.hardware) (m : Int) (s : State) (sc : Nat), s.hasOperandCells 2 → inMemory Config.hardware m →
    s.cell m.toNat ≠ 0 → s.ScratchCell Config.hardware sc →
    CompletesAs (execWith { Config.hardware with scratchFinal := .any } (.imulRegMem a.id m) s) (s.pc + 3) (fun t =>
      t.cell m.toNat = s.x a * s.cell m.toNat ∧ t.ShowsFlagsOf (s.x a * s.cell m.toNat) ∧ s.SameRegs t ∧
        s.SameCellsBut [m.toNat, sc] t)

/-- The identity that 42_imul.md (R140) derives itself, "For every `x` and `n`, and for every `WIDTH`, `mul(x, n) =
wrap(x * n)`": the repeated-addition loop gives `wrap(x * n)`, for every multiplicand of the width. The model computes
`wrap(x * n)` (notes/assumptions/17.md). -/
def Obligations.MultiplyLoopIsWrappedProduct : Prop :=
  ∀ (width : Width) (x n : Int), width.legal → width.holds x = true → mulLoop width x n = mul width x n

/-- R160 with R30, R104, R108. -/
def Obligations.IncRegComputes : Prop :=
  ∀ (a : Reg Config.hardware) (s : State), s.hasOperandCells 1 →
    Completes (.incReg a.id) s (s.pc + 2) (fun t =>
      t.x a = s.x a + 1 ∧ t.ShowsFlagsOf (s.x a + 1) ∧ s.SameRegsBut a t ∧ s.SameCells t)

/-! ### Move, load and store -/

/-- R150, R153 with R31, R104, R108: the value is copied whole and the flags are unchanged. -/
def Obligations.MoveRegRegAndImmRegCopy : Prop :=
  ∀ (a b : Reg Config.hardware) (imm : Int) (s : State), s.hasOperandCells 2 →
    Completes (.moveRegReg a.id b.id) s (s.pc + 3) (fun t =>
      t.x b = s.x a ∧ s.SameRegsBut b t ∧ s.SameCells t ∧ t.flags = s.flags) ∧
    Completes (.moveImmReg imm b.id) s (s.pc + 3) (fun t =>
      t.x b = imm ∧ s.SameRegsBut b t ∧ s.SameCells t ∧ t.flags = s.flags)

/-- R151 with R31, R104, R108. -/
def Obligations.MoveMemRegLoads : Prop :=
  ∀ (m : Int) (b : Reg Config.hardware) (s : State), s.hasOperandCells 2 → inMemory Config.hardware m →
    Completes (.moveMemReg m b.id) s (s.pc + 3) (fun t =>
      t.x b = s.cell m.toNat ∧ s.SameRegsBut b t ∧ s.SameCells t ∧ t.flags = s.flags)

/-- R152 with R31, R104, R108. -/
def Obligations.MoveRegMemStores : Prop :=
  ∀ (a : Reg Config.hardware) (m : Int) (s : State), s.hasOperandCells 2 → inMemory Config.hardware m →
    Completes (.moveRegMem a.id m) s (s.pc + 3) (fun t =>
      t.cell m.toNat = s.x a ∧ s.SameRegs t ∧ s.SameCellsBut [m.toNat] t ∧ t.flags = s.flags)

/-- R180, R181 with R31, R104, R108: `ldi` and `read` write the default register `x[0]`. -/
def Obligations.LdiAndReadLoadTheDefaultRegister : Prop :=
  ∀ (imm : Int) (m : Int) (s : State), s.hasOperandCells 1 →
    Completes (.ldi imm) s (s.pc + 2) (fun t =>
      t.x 0 = imm ∧ s.SameRegsBut 0 t ∧ s.SameCells t ∧ t.flags = s.flags) ∧
    (inMemory Config.hardware m →
      Completes (.read m) s (s.pc + 2) (fun t =>
        t.x 0 = s.cell m.toNat ∧ s.SameRegsBut 0 t ∧ s.SameCells t ∧ t.flags = s.flags))

/-- R182 with R31, R104, R108: `store` writes the default register `x[0]` to memory. -/
def Obligations.StoreWritesTheDefaultRegister : Prop :=
  ∀ (m : Int) (s : State), s.hasOperandCells 1 → inMemory Config.hardware m →
    Completes (.store m) s (s.pc + 2) (fun t =>
      t.cell m.toNat = s.x 0 ∧ s.SameRegs t ∧ s.SameCellsBut [m.toNat] t ∧ t.flags = s.flags)

/-- R182 with what 20_memory.md (R63) derives from R60, "a store to a cell that is fetched later is seen by that fetch":
a `store` to the next opcode cell is seen by the fetch of that cell. -/
def Obligations.StoreToTheNextOpcodeCellIsFetched : Prop :=
  ∀ s : State, s.ctl = .fetch → inMemory Config.hardware s.pc → inMemory Config.hardware (s.pc + 2) →
    s.cell s.pc.toNat = 25 → s.cell (s.pc + 1).toNat = s.pc + 2 →
    ∃ t u, step s = .next t ∧ t.ctl = .fetch ∧ t.pc = s.pc + 2 ∧ fetchOpcode Config.hardware t = .ok u ∧ u.ir = s.x 0

/-! ### Jumps -/

/-- R165 with R31, R103, R108. -/
def Obligations.JmpLoadsPc : Prop :=
  ∀ (target : Int) (s : State), s.hasOperandCells 1 →
    Completes (.jmp target) s target (fun t => s.SameRegs t ∧ s.SameCells t ∧ t.flags = s.flags)

/-- R166, R167, R168 with R31, R103, R108. -/
def Obligations.FlagJumpsTestTheirFlag : Prop :=
  ∀ (target : Int) (s : State), s.hasOperandCells 1 →
    Completes (.jz target) s (if s.flags.z = true then target else s.pc + 2) (fun t =>
      s.SameRegs t ∧ s.SameCells t ∧ t.flags = s.flags) ∧
    Completes (.jn target) s (if s.flags.n = true then target else s.pc + 2) (fun t =>
      s.SameRegs t ∧ s.SameCells t ∧ t.flags = s.flags) ∧
    Completes (.jnz target) s (if s.flags.nz = true then target else s.pc + 2) (fun t =>
      s.SameRegs t ∧ s.SameCells t ∧ t.flags = s.flags)

/-- R169, R170, R171 with R31, R103, R108: `jgt` is taken when the second register is the greater, `jlw` when it is the
less. -/
def Obligations.CompareJumpsCompareTheSecondRegister : Prop :=
  ∀ (a b : Reg Config.hardware) (target : Int) (s : State), s.hasOperandCells 3 →
    Completes (.jeq a.id b.id target) s (if s.x a = s.x b then target else s.pc + 4) (fun t =>
      s.SameRegs t ∧ s.SameCells t ∧ t.flags = s.flags) ∧
    Completes (.jgt a.id b.id target) s (if s.x b > s.x a then target else s.pc + 4) (fun t =>
      s.SameRegs t ∧ s.SameCells t ∧ t.flags = s.flags) ∧
    Completes (.jlw a.id b.id target) s (if s.x b < s.x a then target else s.pc + 4) (fun t =>
      s.SameRegs t ∧ s.SameCells t ∧ t.flags = s.flags)

/-- R172: every jump that is taken, its operand cells consumed without a fault, accepts a target outside memory: it
completes with `pc` the target, and the next step faults there. -/
def Obligations.JumpOutsideMemoryFaultsAtTheNextFetch : Prop :=
  ∀ (i : Instr) (s : State) (target : Int), s.ConsumesOperands i → i.takenTarget s = some target →
    ¬ inMemory Config.hardware target →
    Completes i s target fun t => ∃ u, step t = .next u ∧ u.AbortedBy (.outOfBounds target) ∧ u.pc = target

/-! ### Rules over all instructions -/

/-- The PC law that 40_datapath_and_cycle.md (R104) derives from R98, R101, R102 and R103: the `pc` of an instruction that
completes is the target of a jump that is taken, and the address after its operand cells otherwise. -/
def Obligations.PcLaw : Prop :=
  ∀ (i : Instr) (s t : State), exec i s = .next t → t.ctl = .fetch →
    t.pc = match i.takenTarget s with
      | some target => target
      | none => s.pc + 1 + (i.mnemonic.format.k : Int)

/-- R108: an instruction that completes changes no register but its destination, and no cell but its destination and, for
`imulRegMem`, the scratch cell. -/
def Obligations.FrameRule : Prop :=
  ∀ (i : Instr) (s t : State), exec i s = .next t → t.ctl = .fetch →
    (∀ r : Nat, i.destRegister ≠ some (r : Int) → t.x r = s.x r) ∧
    (∀ a : Nat, i.destCell.map Int.toNat ≠ some a →
      ((∃ reg addr, i = .imulRegMem reg addr ∧ s.cell addr.toNat ≠ 0) → ¬ s.ScratchCell Config.hardware a) → t.cell a = s.cell a) ∧
    (i.affectsFlags = false → t.flags = s.flags)

/-- The flag invariants that 10_state.md (R32) derives from R30 and R38: after a flag-affecting instruction exactly one of
Z and NZ is 1, and N implies NZ; the reset value is 000. -/
def Obligations.FlagStatesAfterArithmetic : Prop :=
  (∀ (i : Instr) (s t : State), exec i s = .next t → t.ctl = .fetch → i.affectsFlags = true →
    t.flags.z = !t.flags.nz ∧ (t.flags.n = true → t.flags.nz = true)) ∧
  State.reset.flags = ⟨false, false, false⟩

/-- R24, R101, R106 (step 1), R197: the first fault met while the operand cells are consumed in cell order is raised, for
every instruction. -/
def Obligations.OperandFaultsInCellOrder : Prop :=
  ∀ (i : Instr) (s : State) (c : Condition),
    operandFault Config.hardware s i.kindedOperands 1 = some c → Raises i s c

/-- R51, R52, R191: after its operand cells are consumed, an instruction whose memory operand is outside memory raises
`OutOfBounds` with that address, for every such instruction. -/
def Obligations.DataAddressOutsideMemoryFaults : Prop :=
  ∀ (i : Instr) (s : State) (m : Int), (OperandKind.mem, m) ∈ i.kindedOperands → s.ConsumesOperands i →
    ¬ inMemory Config.hardware m → Raises i s (.outOfBounds m)

/-- R191: `OutOfBounds` of an instruction records the address of one of its operand cells or of its memory operand, and
that address is outside memory. -/
def Obligations.OutOfBoundsOnlyForCellsOutsideMemory : Prop :=
  ∀ (i : Instr) (s t : State) (a : Int), exec i s = .next t → t.AbortedBy (.outOfBounds a) →
    ¬ inMemory Config.hardware a ∧
    ((OperandKind.mem, a) ∈ i.kindedOperands ∨
      ∃ j : Nat, 1 ≤ j ∧ j ≤ i.mnemonic.format.k ∧ a = s.pc + (j : Int))

/-- R192: `InvalidRegister` is raised by exactly the instructions with a register operand outside `[0, NGPR)`, once every
operand cell is in memory; the id it records is such an operand. -/
def Obligations.InvalidRegisterExactly : Prop :=
  (∀ (i : Instr) (s t : State) (id : Int), exec i s = .next t → t.AbortedBy (.invalidRegister id) →
    (OperandKind.reg, id) ∈ i.kindedOperands ∧ ¬ (0 ≤ id ∧ id < 4)) ∧
  (∀ (i : Instr) (s : State) (id : Int), s.hasOperandCells i.mnemonic.format.k →
    (OperandKind.reg, id) ∈ i.kindedOperands → ¬ (0 ≤ id ∧ id < 4) →
    ∃ id', (OperandKind.reg, id') ∈ i.kindedOperands ∧ ¬ (0 ≤ id' ∧ id' < 4) ∧ Raises i s (.invalidRegister id'))

/-- R195, R31: a step that faults leaves registers, memory and flags as they were. -/
def Obligations.FaultingStepChangesNoProgramState : Prop :=
  ∀ (s t : State) (c : Condition), step s = .next t → t.AbortedBy c →
    s.SameRegs t ∧ s.SameCells t ∧ t.flags = s.flags

/-- R190, R194: the running block raises `OutOfBounds`, `InvalidRegister` or `NoScratchCell`, and never the loader's
`LoadFormat`. -/
def Obligations.RunningBlockNeverRaisesLoadFormat : Prop :=
  ∀ (s t : State) (line : Nat), step s = .next t → ¬ t.AbortedBy (.loadFormat line)

/-! ### Invariants and what a program cannot see -/

/-- R50, R22 and the flag states 10_state.md derives in R32: every step keeps the memory and the register file in their
canonical form and within `MEM_SIZE` and `NGPR`, and the flags in a legal state. The canonical form is the model's own
(notes/assumptions/8.md). -/
def Obligations.EveryStepKeepsTheInvariant : Prop :=
  ∀ s t : State, s.Inv Config.hardware → step s = .next t → t.Inv Config.hardware

/-- R2, R3: in a block with any legal parameters, every step keeps that invariant and leaves every general-purpose register
and every memory cell within the width. It says nothing of `pc` and `ir`: the model does not wrap `pc + 1`
(notes/assumptions/16.md). -/
def Obligations.EveryStepKeepsTheInvariantAndTheWidth : Prop :=
  ∀ (P : Params) (s t : State), P.Legal → s.Inv P → s.InWidth P → stepWith P s = .next t → t.Inv P ∧ t.InWidth P

/-- R38: the invariant holds at reset. Its canonical form is the model's own (notes/assumptions/8.md). -/
def Obligations.ResetMeetsTheInvariant : Prop := State.reset.Inv Config.hardware

/-- R37, R28, R40: what a program can observe after a step does not depend on `ir`, the hidden state or the free values
to come (`State.draws` is the model's own field, notes/assumptions/2.md); only after a fault is `pc` unspecified
(R195). -/
def Obligations.HiddenStateIsUnobservable : Prop :=
  ∀ s s' t : State, s.ctl = .fetch → s.Agree s' → step s = .next t →
    ∃ t', step s' = .next t' ∧ t.mem = t'.mem ∧ t.gpr = t'.gpr ∧ t.flags = t'.flags ∧ t.ctl = t'.ctl ∧
      ((∃ c, t.AbortedBy c) ∨ t.pc = t'.pc)

/-- The model's own form of the memory and the register file (notes/assumptions/8.md): two of them in canonical form that
read alike at every index are equal. -/
def Obligations.CanonicalMemoriesThatReadAlikeAreEqual : Prop :=
  ∀ m n : Cells, m.wf → n.wf → (∀ a, Cells.read m a = Cells.read n a) → m = n

/-- R51: `MemRead` answers the cell in memory and raises `OutOfBounds` with the address otherwise. -/
def Obligations.MemReadReadsOneCell : Prop :=
  ∀ (P : Params) (a : Int) (s : State),
    (0 ≤ a ∧ a < P.memSize → memRead P a s = .ok (s.cell a.toNat)) ∧
    (¬ (0 ≤ a ∧ a < P.memSize) → memRead P a s = .error (.outOfBounds a))

/-- R52: `MemWrite` writes the cell in memory and no other cell, and raises `OutOfBounds` with the address otherwise. -/
def Obligations.MemWriteWritesOneCell : Prop :=
  ∀ (P : Params) (a v : Int) (s : State),
    (0 ≤ a ∧ a < P.memSize →
      ∃ t, memWrite P a v s = .ok t ∧ t.cell a.toNat = v ∧ s.SameCellsBut [a.toNat] t) ∧
    (¬ (0 ≤ a ∧ a < P.memSize) → memWrite P a v s = .error (.outOfBounds a))

/-! ### Reset and loading -/

/-- R38: the state after reset. -/
def Obligations.ResetState : Prop :=
  (∀ i : Nat, State.reset.x i = 0) ∧ State.reset.pc = 0 ∧ State.reset.ir = 0 ∧
  State.reset.flags = ⟨false, false, false⟩ ∧ (∀ a : Nat, State.reset.cell a = 0) ∧
  State.reset.hid.ext = 0 ∧ State.reset.hid.intA = 0 ∧ State.reset.hid.intB = 0 ∧ State.reset.hid.sel = 0 ∧
  State.reset.hid.slot0 = 0 ∧ State.reset.hid.slot1 = 0 ∧ State.reset.ctl = .fetch

/-- R221, R194: loading puts line `j` into cell `j` and leaves every other cell, and the rest of the state, as it was; a line
that is no integer, or is out of the width, is refused with `LoadFormat(j)`, and a line past the last cell with
`OutOfBounds(j)`. That a refused load leaves `ctl` as it was is R194's for `LoadFormat` and the model's choice for
`OutOfBounds` (notes/assumptions/9.md). -/
def Obligations.LoadPlacesLinesOrRefuses : Prop :=
  ∀ (P : Params) (vs : List Int) (s : State), (∀ v ∈ vs, P.width.holds v = true) → vs.length ≤ P.memSize →
    (∃ t, loadWith P (vs.map .integer) s = .loaded t ∧ (∀ j, (h : j < vs.length) → t.cell j = vs[j]) ∧
      (∀ a, vs.length ≤ a → t.cell a = s.cell a) ∧ s.SameRegs t ∧ t.pc = s.pc ∧ t.ir = s.ir ∧ t.flags = s.flags ∧
      t.ctl = s.ctl) ∧
    (∀ rest, ∃ t, loadWith P (vs.map .integer ++ .notInteger :: rest) s = .refused (.loadFormat vs.length) t ∧
      t.ctl = s.ctl) ∧
    (∀ v rest, P.width.holds v = false →
      ∃ t, loadWith P (vs.map .integer ++ .integer v :: rest) s = .refused (.loadFormat vs.length) t ∧
        t.ctl = s.ctl) ∧
    (∀ v rest, P.width.holds v = true → vs.length = P.memSize →
      ∃ t, loadWith P (vs.map .integer ++ .integer v :: rest) s = .refused (.outOfBounds vs.length) t ∧
        t.ctl = s.ctl)

/-! ### The datapath -/

/-- R90: `get` answers the value last put on a bus; a `put` changes no other bus. -/
def Obligations.BusHoldsTheLastValuePut : Prop :=
  ∀ (b other : Bus) (v w : Int) (s : State),
    busGet (busPut b v s) b = v ∧ busPut b w (busPut b v s) = busPut b w s ∧
    (other ≠ b → busGet (busPut b v s) other = busGet s other)

/-- R92: the four transfer operations of a register, with the internal buses of R25; the value read back after a store is
the value on the bus, and reading changes no register. FLAGS has none: `getBit` answers the flag `setBit` wrote, and
`setBit` changes no other flag. -/
def Obligations.RegisterTransfers : Prop :=
  ∀ (r : WiredReg) (s : State),
    regRead r s = busPut .ext (r.get s) s ∧ r.get (regStore r s) = busGet s .ext ∧
    regInternalRead r s = busPut r.intBus (r.get s) s ∧ r.get (regInternalStore r s) = busGet s r.intBus ∧
    (∀ q : WiredReg, q.get (regRead r s) = q.get s ∧ q.get (regInternalRead r s) = q.get s) ∧
    (∀ q : WiredReg, q ≠ r → q.get (regStore r s) = q.get s ∧ q.get (regInternalStore r s) = q.get s) ∧
    (∀ i : Nat, (WiredReg.gpr i).intBus = .intA) ∧ WiredReg.pc.intBus = .intB ∧ WiredReg.ir.intBus = .intB ∧
    s.flags.getBit 0 = s.flags.z ∧ s.flags.getBit 1 = s.flags.n ∧ s.flags.getBit 2 = s.flags.nz ∧
    ∀ (bit other : Fin 3) (v : Bool), (s.flags.setBit bit v).getBit bit = v ∧
      (other ≠ bit → (s.flags.setBit bit v).getBit other = s.flags.getBit other)

/-- R95: `memRead()` overwrites the address on the external bus by the datum; `memStore()` takes the address first and then
the datum put on the external bus; both raise `OutOfBounds` outside memory. -/
def Obligations.MemoryBusInterface : Prop :=
  ∀ (P : Params) (a v : Int) (s : State),
    (inMemory P a →
      busMemRead P (busPut .ext a s) = .ok (busPut .ext (s.cell a.toNat) s) ∧
      ∃ t, memStoreData P (busPut .ext v (memStoreAddress (busPut .ext a s))) = .ok t ∧ t.cell a.toNat = v ∧
        s.SameCellsBut [a.toNat] t ∧ s.SameRegs t) ∧
    (¬ inMemory P a →
      busMemRead P (busPut .ext a s) = .error (.outOfBounds a) ∧
      memStoreData P (busPut .ext v (memStoreAddress (busPut .ext a s))) = .error (.outOfBounds a))

/-- R94: the ALU's slots are loaded from and written to either internal bus, and its operations, on any width, each write
the slot they name and nothing else, the flags included. -/
def Obligations.AluOperations : Prop :=
  ∀ (P : Params) (slot : AluSlot) (port : AluBus) (s : State),
    aluGet (aluLoad slot port s) slot = busGet s port.bus ∧
    busGet (aluUnload slot port s) port.bus = aluGet s slot ∧
    aluGet (aluAdd P s) .slot1 = wrap P.width (aluGet s .slot0 + aluGet s .slot1) ∧
    aluGet (aluAdd P s) .slot0 = aluGet s .slot0 ∧
    aluGet (aluSub P s) .slot1 = wrap P.width (aluGet s .slot0 - aluGet s .slot1) ∧
    aluGet (aluSub P s) .slot0 = aluGet s .slot0 ∧
    aluGet (aluInc P slot s) slot = wrap P.width (aluGet s slot + 1) ∧
    (∀ other, other ≠ slot → aluGet (aluInc P slot s) other = aluGet s other ∧
      aluGet (aluLoad slot port s) other = aluGet s other) ∧
    (aluAdd P s).flags = s.flags ∧ (aluSub P s).flags = s.flags ∧ (aluInc P slot s).flags = s.flags ∧
    AluBus.a.bus = .intA ∧ AluBus.b.bus = .intB

/-- R21, R24, R81: with any `NGPR`, the register file holds the general-purpose registers, PC, IR and FLAGS in this order
and nothing else, and `checkReg` refuses every id that names no general-purpose register, those of PC, IR and FLAGS among
them; on this hardware the register names resolve to these indices. -/
def Obligations.RegisterFileOrder : Prop :=
  (∀ P : Params,
    (∀ i : Nat, i < P.ngpr → regEntryAt P i = some (.wired (.gpr i))) ∧
    regEntryAt P P.ngpr = some (.wired .pc) ∧ regEntryAt P (P.ngpr + 1) = some (.wired .ir) ∧
    regEntryAt P (P.ngpr + 2) = some .flags ∧ (∀ i : Int, i < 0 ∨ P.ngpr + 3 ≤ i → regEntryAt P i = none) ∧
    ∀ i : Int, i < 0 ∨ P.ngpr ≤ i → checkReg P i = .error (.invalidRegister i)) ∧
  registerId Config.hardware "GPR0" = some 0 ∧ registerId Config.hardware "GPR1" = some 1 ∧
  registerId Config.hardware "GPR2" = some 2 ∧ registerId Config.hardware "GPR3" = some 3 ∧
  registerId Config.hardware "PC" = some 4 ∧ registerId Config.hardware "IR" = some 5

/-- R105, R90-R95, R120: the bus-level microprogram `microAddRegReg` (the model's choice, notes/assumptions/12.md), run on
the state FETCH leaves, reaches the net effect of `addRegReg` on its operand cells, or raises the same condition with
registers, memory and flags unchanged. -/
def Obligations.MicroAddRegRegRefinesAddRegReg : Prop :=
  ∀ s : State,
    (∀ t, runMicro Config.hardware microAddRegReg s = .ok t →
      ∃ u, exec (.addRegReg (s.cell (s.pc + 1).toNat) (s.cell (s.pc + 2).toNat)) s = .next u ∧ u.ctl = .fetch ∧
        u.mem = t.mem ∧ u.gpr = t.gpr ∧ u.flags = t.flags ∧ u.pc = t.pc) ∧
    (∀ c t, runMicro Config.hardware microAddRegReg s = .error (c, t) →
      ∃ u, exec (.addRegReg (s.cell (s.pc + 1).toNat) (s.cell (s.pc + 2).toNat)) s = .next u ∧ u.AbortedBy c ∧
        u.mem = t.mem ∧ u.gpr = t.gpr ∧ u.flags = t.flags)

/-- R105, R95, R181, R182: the bus-level microprograms `microRead` and `microStore` (the model's choice,
notes/assumptions/12.md) reach the net effects of `read` and `store`, or raise the same condition with registers, memory
and flags unchanged. -/
def Obligations.MicroReadAndStoreRefine : Prop :=
  ∀ s : State,
    (∀ t, runMicro Config.hardware microRead s = .ok t →
      ∃ u, exec (.read (s.cell (s.pc + 1).toNat)) s = .next u ∧ u.ctl = .fetch ∧
        u.mem = t.mem ∧ u.gpr = t.gpr ∧ u.flags = t.flags ∧ u.pc = t.pc) ∧
    (∀ c t, runMicro Config.hardware microRead s = .error (c, t) →
      ∃ u, exec (.read (s.cell (s.pc + 1).toNat)) s = .next u ∧ u.AbortedBy c ∧
        u.mem = t.mem ∧ u.gpr = t.gpr ∧ u.flags = t.flags) ∧
    (∀ t, runMicro Config.hardware microStore s = .ok t →
      ∃ u, exec (.store (s.cell (s.pc + 1).toNat)) s = .next u ∧ u.ctl = .fetch ∧
        u.mem = t.mem ∧ u.gpr = t.gpr ∧ u.flags = t.flags ∧ u.pc = t.pc) ∧
    (∀ c t, runMicro Config.hardware microStore s = .error (c, t) →
      ∃ u, exec (.store (s.cell (s.pc + 1).toNat)) s = .next u ∧ u.AbortedBy c ∧
        u.mem = t.mem ∧ u.gpr = t.gpr ∧ u.flags = t.flags)
end

