-- ==== Sys2Proof/Laws/Cells.lean ====
section
/-! SUPPORT. What reading and writing an indexed array do: read after write, and the canonical form a write keeps. -/

namespace Sys2Proof.Machine

theorem Cells.read_erase (m : Cells) (a b : Nat) :
    Cells.read (Cells.erase m a) b = if b = a then 0 else Cells.read m b := by
  induction m with
  | nil => simp [Cells.erase, Cells.read]
  | cons c rest ih =>
    obtain ⟨k, v⟩ := c
    unfold Cells.erase at ih ⊢
    by_cases hk : k = a
    · subst hk
      simp only [ne_eq, not_true_eq_false, decide_false, Bool.false_eq_true, not_false_eq_true,
        List.filter_cons_of_neg, Cells.read]
      rw [ih]; split <;> rfl
    · simp only [ne_eq, hk, not_false_eq_true, decide_true, List.filter_cons_of_pos, Cells.read]
      rw [ih]; split_ifs <;> simp_all

theorem Cells.read_insert (m : Cells) (a b : Nat) (v : Int) (hm : Cells.read m a = 0) (ha : ∀ c ∈ m, c.1 ≠ a) :
    Cells.read (Cells.insert m a v) b = if b = a then v else Cells.read m b := by
  induction m with
  | nil => simp [Cells.insert, Cells.read]
  | cons c rest ih =>
    obtain ⟨k, w⟩ := c
    have hk : k ≠ a := ha (k, w) (by simp)
    unfold Cells.insert
    split
    · simp only [Cells.read]
    · have hr : Cells.read rest a = 0 := by
        simpa [Cells.read, Ne.symm hk] using hm
      simp only [Cells.read]
      rw [ih hr (fun c hc => ha c (by simp [hc]))]
      split_ifs <;> simp_all

theorem Cells.erase_ne (m : Cells) (a : Nat) : ∀ c ∈ Cells.erase m a, c.1 ≠ a := by
  intro c hc
  simpa using (List.mem_filter.mp hc).2

/-- A write is seen by a read of the same cell and by no other read (R52, R60). -/
@[simp] theorem Cells.read_write (m : Cells) (a b : Nat) (v : Int) :
    Cells.read (Cells.write m a v) b = if b = a then v else Cells.read m b := by
  unfold Cells.write
  split
  · next h => rw [Cells.read_erase, h]
  · rw [Cells.read_insert _ _ _ _ (by simp [Cells.read_erase]) (Cells.erase_ne m a), Cells.read_erase]
    split_ifs <;> rfl

theorem Cells.erase_wf {m : Cells} (h : m.wf) (a : Nat) : (Cells.erase m a).wf :=
  ⟨h.1.filter _, fun c hc => h.2 c (List.mem_filter.mp hc).1⟩

theorem Cells.mem_insert {m : Cells} {a : Nat} {v : Int} {c : Nat × Int} :
    c ∈ Cells.insert m a v ↔ c = (a, v) ∨ c ∈ m := by
  induction m with
  | nil => simp [Cells.insert]
  | cons d rest ih =>
    unfold Cells.insert
    split <;> simp_all
    tauto

theorem Cells.insert_wf {m : Cells} (h : m.wf) {a : Nat} {v : Int} (ha : ∀ c ∈ m, c.1 ≠ a) (hv : v ≠ 0) :
    (Cells.insert m a v).wf := by
  refine ⟨?_, ?_⟩
  · have h1 := h.1
    clear h
    induction m with
    | nil => simp [Cells.insert]
    | cons d rest ih =>
      obtain ⟨hd, hr⟩ := List.pairwise_cons.mp h1
      unfold Cells.insert
      split
      · next hlt =>
        refine List.pairwise_cons.mpr ⟨?_, h1⟩
        intro c hc
        rcases List.mem_cons.mp hc with rfl | hc
        · exact hlt
        · exact lt_trans hlt (hd c hc)
      · next hge =>
        refine List.pairwise_cons.mpr ⟨?_, ih (fun c hc => ha c (by simp [hc])) hr⟩
        intro c hc
        rcases Cells.mem_insert.mp hc with rfl | hc
        · exact lt_of_le_of_ne (not_lt.mp hge) (ha d (by simp))
        · exact hd c hc
  · intro c hc
    rcases Cells.mem_insert.mp hc with rfl | hc
    · exact hv
    · exact h.2 c hc

/-- What holds of 0 and of every listed value holds of what any index reads as. -/
theorem Cells.read_of_forall {m : Cells} {p : Int → Prop} (h0 : p 0) (h : ∀ c ∈ m, p c.2) (a : Nat) :
    p (Cells.read m a) := by
  induction m with
  | nil => exact h0
  | cons c rest ih =>
    obtain ⟨k, v⟩ := c
    unfold Cells.read
    split
    · exact h (k, v) (by simp)
    · exact ih fun c hc => h c (by simp [hc])

/-- A write keeps the canonical form. -/
theorem Cells.write_wf {m : Cells} (h : m.wf) (a : Nat) (v : Int) : (Cells.write m a v).wf := by
  unfold Cells.write
  split
  · exact Cells.erase_wf h a
  · next hv => exact Cells.insert_wf (Cells.erase_wf h a) (Cells.erase_ne m a) hv

/-- A write lists no cell but the one it writes. -/
theorem Cells.mem_write {m : Cells} {a : Nat} {v : Int} {c : Nat × Int} (h : c ∈ Cells.write m a v) :
    c.1 = a ∨ c ∈ m := by
  unfold Cells.write at h
  split at h
  · exact .inr (List.mem_filter.mp h).1
  · rcases Cells.mem_insert.mp h with rfl | h
    · exact .inl rfl
    · exact .inr (List.mem_filter.mp h).1

end Sys2Proof.Machine
end

