-- ==== Sys2Proof/Laws/State.lean ====
section
/-! SUPPORT. One lemma per field per update of the state, so that no proof unfolds a record update. `State.x` and
`State.cell` are fields here: what a register and a cell hold. -/

namespace Sys2Proof.Machine

section Fields

variable (s : State)

/-! ### `State.setPc` -/

@[simp] theorem State.setPc_mem (pc : Int) : (s.setPc pc).mem = s.mem := rfl
@[simp] theorem State.setPc_gpr (pc : Int) : (s.setPc pc).gpr = s.gpr := rfl
@[simp] theorem State.setPc_pc (pc : Int) : (s.setPc pc).pc = pc := rfl
@[simp] theorem State.setPc_ir (pc : Int) : (s.setPc pc).ir = s.ir := rfl
@[simp] theorem State.setPc_flags (pc : Int) : (s.setPc pc).flags = s.flags := rfl
@[simp] theorem State.setPc_ctl (pc : Int) : (s.setPc pc).ctl = s.ctl := rfl
@[simp] theorem State.setPc_hid (pc : Int) : (s.setPc pc).hid = s.hid := rfl
@[simp] theorem State.setPc_draws (pc : Int) : (s.setPc pc).draws = s.draws := rfl
@[simp] theorem State.setPc_x (pc : Int) (i : Nat) : (s.setPc pc).x i = s.x i := rfl
@[simp] theorem State.setPc_cell (pc : Int) (b : Nat) : (s.setPc pc).cell b = s.cell b := rfl

/-! ### `State.setX` -/

@[simp] theorem State.setX_mem (r : Nat) (v : Int) : (s.setX r v).mem = s.mem := rfl
@[simp] theorem State.setX_gpr (r : Nat) (v : Int) : (s.setX r v).gpr = Cells.write s.gpr r v := rfl
@[simp] theorem State.setX_pc (r : Nat) (v : Int) : (s.setX r v).pc = s.pc := rfl
@[simp] theorem State.setX_ir (r : Nat) (v : Int) : (s.setX r v).ir = s.ir := rfl
@[simp] theorem State.setX_flags (r : Nat) (v : Int) : (s.setX r v).flags = s.flags := rfl
@[simp] theorem State.setX_ctl (r : Nat) (v : Int) : (s.setX r v).ctl = s.ctl := rfl
@[simp] theorem State.setX_hid (r : Nat) (v : Int) : (s.setX r v).hid = s.hid := rfl
@[simp] theorem State.setX_draws (r : Nat) (v : Int) : (s.setX r v).draws = s.draws := rfl
@[simp] theorem State.setX_cell (r : Nat) (v : Int) (b : Nat) : (s.setX r v).cell b = s.cell b := rfl

/-! ### `State.setCell` -/

@[simp] theorem State.setCell_mem (a : Nat) (v : Int) : (s.setCell a v).mem = Cells.write s.mem a v := rfl
@[simp] theorem State.setCell_gpr (a : Nat) (v : Int) : (s.setCell a v).gpr = s.gpr := rfl
@[simp] theorem State.setCell_pc (a : Nat) (v : Int) : (s.setCell a v).pc = s.pc := rfl
@[simp] theorem State.setCell_ir (a : Nat) (v : Int) : (s.setCell a v).ir = s.ir := rfl
@[simp] theorem State.setCell_flags (a : Nat) (v : Int) : (s.setCell a v).flags = s.flags := rfl
@[simp] theorem State.setCell_ctl (a : Nat) (v : Int) : (s.setCell a v).ctl = s.ctl := rfl
@[simp] theorem State.setCell_hid (a : Nat) (v : Int) : (s.setCell a v).hid = s.hid := rfl
@[simp] theorem State.setCell_draws (a : Nat) (v : Int) : (s.setCell a v).draws = s.draws := rfl
@[simp] theorem State.setCell_x (a : Nat) (v : Int) (i : Nat) : (s.setCell a v).x i = s.x i := rfl

/-! ### `State.setFlags` -/

@[simp] theorem State.setFlags_mem (r : Int) : (s.setFlags r).mem = s.mem := rfl
@[simp] theorem State.setFlags_gpr (r : Int) : (s.setFlags r).gpr = s.gpr := rfl
@[simp] theorem State.setFlags_pc (r : Int) : (s.setFlags r).pc = s.pc := rfl
@[simp] theorem State.setFlags_ir (r : Int) : (s.setFlags r).ir = s.ir := rfl
@[simp] theorem State.setFlags_flags (r : Int) : (s.setFlags r).flags = flagsOf r := rfl
@[simp] theorem State.setFlags_ctl (r : Int) : (s.setFlags r).ctl = s.ctl := rfl
@[simp] theorem State.setFlags_hid (r : Int) : (s.setFlags r).hid = s.hid := rfl
@[simp] theorem State.setFlags_draws (r : Int) : (s.setFlags r).draws = s.draws := rfl
@[simp] theorem State.setFlags_x (r : Int) (i : Nat) : (s.setFlags r).x i = s.x i := rfl
@[simp] theorem State.setFlags_cell (r : Int) (b : Nat) : (s.setFlags r).cell b = s.cell b := rfl

/-! ### `State.raised` -/

@[simp] theorem State.raised_mem (P : Params) (c : Condition) : (State.raised P c s).mem = s.mem := rfl
@[simp] theorem State.raised_gpr (P : Params) (c : Condition) : (State.raised P c s).gpr = s.gpr := rfl
@[simp] theorem State.raised_pc (P : Params) (c : Condition) : (State.raised P c s).pc = draw P s .pc := rfl
@[simp] theorem State.raised_ir (P : Params) (c : Condition) : (State.raised P c s).ir = draw P s .ir := rfl
@[simp] theorem State.raised_flags (P : Params) (c : Condition) : (State.raised P c s).flags = s.flags := rfl
@[simp] theorem State.raised_ctl (P : Params) (c : Condition) : (State.raised P c s).ctl = .faulted c := rfl
@[simp] theorem State.raised_hid (P : Params) (c : Condition) : (State.raised P c s).hid = drawHidden P s := rfl
@[simp] theorem State.raised_draws (P : Params) (c : Condition) : (State.raised P c s).draws = s.draws + 1 := rfl
@[simp] theorem State.raised_x (P : Params) (c : Condition) (i : Nat) : (State.raised P c s).x i = s.x i := rfl
@[simp] theorem State.raised_cell (P : Params) (c : Condition) (b : Nat) : (State.raised P c s).cell b = s.cell b := rfl

/-! ### `State.stopped` -/

@[simp] theorem State.stopped_mem (P : Params) : (State.stopped P s).mem = s.mem := rfl
@[simp] theorem State.stopped_gpr (P : Params) : (State.stopped P s).gpr = s.gpr := rfl
@[simp] theorem State.stopped_pc (P : Params) : (State.stopped P s).pc = s.pc := rfl
@[simp] theorem State.stopped_ir (P : Params) : (State.stopped P s).ir = s.ir := rfl
@[simp] theorem State.stopped_flags (P : Params) : (State.stopped P s).flags = s.flags := rfl
@[simp] theorem State.stopped_ctl (P : Params) : (State.stopped P s).ctl = .halted := rfl
@[simp] theorem State.stopped_hid (P : Params) : (State.stopped P s).hid = drawHidden P s := rfl
@[simp] theorem State.stopped_draws (P : Params) : (State.stopped P s).draws = s.draws + 1 := rfl
@[simp] theorem State.stopped_x (P : Params) (i : Nat) : (State.stopped P s).x i = s.x i := rfl
@[simp] theorem State.stopped_cell (P : Params) (b : Nat) : (State.stopped P s).cell b = s.cell b := rfl

/-! ### `State.completed` -/

@[simp] theorem State.completed_mem (P : Params) (pc : Int) : (State.completed P pc s).mem = s.mem := rfl
@[simp] theorem State.completed_gpr (P : Params) (pc : Int) : (State.completed P pc s).gpr = s.gpr := rfl
@[simp] theorem State.completed_pc (P : Params) (pc : Int) : (State.completed P pc s).pc = pc := rfl
@[simp] theorem State.completed_ir (P : Params) (pc : Int) : (State.completed P pc s).ir = draw P s .ir := rfl
@[simp] theorem State.completed_flags (P : Params) (pc : Int) : (State.completed P pc s).flags = s.flags := rfl
@[simp] theorem State.completed_ctl (P : Params) (pc : Int) : (State.completed P pc s).ctl = .fetch := rfl
@[simp] theorem State.completed_hid (P : Params) (pc : Int) : (State.completed P pc s).hid = drawHidden P s := rfl
@[simp] theorem State.completed_draws (P : Params) (pc : Int) : (State.completed P pc s).draws = s.draws + 1 := rfl
@[simp] theorem State.completed_x (P : Params) (pc : Int) (i : Nat) : (State.completed P pc s).x i = s.x i := rfl
@[simp] theorem State.completed_cell (P : Params) (pc : Int) (b : Nat) : (State.completed P pc s).cell b = s.cell b := rfl

/-- What a register holds after a write: the value where it was written, the old value elsewhere (R26). -/
@[simp] theorem State.setX_x (r : Nat) (v : Int) (i : Nat) :
    (s.setX r v).x i = if i = r then v else s.x i :=
  Cells.read_write s.gpr r i v

end Fields

end Sys2Proof.Machine
end

