-- ==== Sys2Proof/Laws/Memory.lean ====
section
/-! SUPPORT. What the memory's operations do (20_memory.md R50-R53, R60). -/

namespace Sys2Proof.Machine

/-- What a cell holds after a write (R52, R60). -/
@[simp] theorem State.setCell_cell (s : State) (a : Nat) (v : Int) (b : Nat) :
    (s.setCell a v).cell b = if b = a then v else s.cell b :=
  Cells.read_write s.mem a b v

/-- Reset's memory has the canonical form. -/
theorem State.reset_mem_wf : State.reset.mem.wf := by decide

/-- Everything `MemRead` can do (R51). -/
theorem memRead_cases (P : Params) (a : Int) (s : State) :
    (inMemory P a ∧ memRead P a s = .ok (s.cell a.toNat)) ∨
    (¬ inMemory P a ∧ memRead P a s = .error (.outOfBounds a)) := by
  by_cases h : inMemory P a
  · exact .inl ⟨h, if_pos h⟩
  · exact .inr ⟨h, if_neg h⟩

/-- Everything `MemWrite` can do (R52). -/
theorem memWrite_cases (P : Params) (a v : Int) (s : State) :
    (inMemory P a ∧ memWrite P a v s = .ok (s.setCell a.toNat v)) ∨
    (¬ inMemory P a ∧ memWrite P a v s = .error (.outOfBounds a)) := by
  by_cases h : inMemory P a
  · exact .inl ⟨h, if_pos h⟩
  · exact .inr ⟨h, if_neg h⟩

/-- `MemRead` of a cell (R51). -/
theorem memRead_ok {P : Params} {a : Int} {s : State} (h : inMemory P a) : memRead P a s = .ok (s.cell a.toNat) :=
  if_pos h

/-- `MemWrite` of a cell (R52). -/
theorem memWrite_ok {P : Params} {a v : Int} {s : State} (h : inMemory P a) :
    memWrite P a v s = .ok (s.setCell a.toNat v) :=
  if_pos h

/-- `MemRead` outside memory (R51, R53). -/
theorem memRead_error {P : Params} {a : Int} {s : State} (h : ¬ inMemory P a) :
    memRead P a s = .error (.outOfBounds a) :=
  if_neg h

/-- `MemWrite` outside memory (R52, R53). -/
theorem memWrite_error {P : Params} {a v : Int} {s : State} (h : ¬ inMemory P a) :
    memWrite P a v s = .error (.outOfBounds a) :=
  if_neg h

/-- What the scratch search finds: the highest cell below `n` that holds 0 (R144). -/
theorem scratchBelow_some {m : Cells} {n j : Nat} (h : scratchBelow m n = some j) :
    j < n ∧ Cells.read m j = 0 ∧ ∀ k, j < k → k < n → Cells.read m k ≠ 0 := by
  induction n with
  | zero => simp [scratchBelow] at h
  | succ n ih =>
    unfold scratchBelow at h
    split at h
    · next h0 =>
      obtain rfl : n = j := by simpa using h
      exact ⟨by omega, h0, fun k h1 h2 => by omega⟩
    · next h0 =>
      obtain ⟨h1, h2, h3⟩ := ih h
      refine ⟨by omega, h2, fun k hk hkn => ?_⟩
      rcases Nat.lt_succ_iff_lt_or_eq.mp hkn with hk' | rfl
      · exact h3 k hk hk'
      · exact h0

/-- The scratch search fails when no cell below `n` holds 0 (R144, R193). -/
theorem scratchBelow_none {m : Cells} {n : Nat} :
    scratchBelow m n = none ↔ ∀ k, k < n → Cells.read m k ≠ 0 := by
  induction n with
  | zero => simp [scratchBelow]
  | succ n ih =>
    unfold scratchBelow
    split
    · next h0 => simp only [reduceCtorEq, false_iff, not_forall]; exact ⟨n, by omega, by simpa using h0⟩
    · next h0 =>
      rw [ih]
      refine ⟨fun h k hk => ?_, fun h k hk => h k (by omega)⟩
      rcases Nat.lt_succ_iff_lt_or_eq.mp hk with hk' | rfl
      · exact h k hk'
      · exact h0

end Sys2Proof.Machine
end

