-- ==== Sys2Proof/Laws/Ops.lean ====
section
/-! SUPPORT. For each shared operation of the meanings, one lemma (`…_cases`) that says everything it can do, and the
lemmas that run it where its outcome is known. -/

namespace Sys2Proof.Machine

/-! ### Arithmetic and flags -/

/-- At `WIDTH = INF`, `wrap` is the identity (R3). -/
@[simp] theorem wrap_inf (v : Int) : wrap .inf v = v := rfl

@[simp] theorem hardware_width : Config.hardware.width = .inf := rfl
@[simp] theorem hardware_memSize : Config.hardware.memSize = 128 := rfl
@[simp] theorem hardware_scratchFinal : Config.hardware.scratchFinal = .product := rfl

/-- On this hardware `mul` is the exact product (R3, R140). -/
@[simp] theorem mul_inf (x n : Int) : mul .inf x n = x * n := rfl

@[simp] theorem flagsOf_z (r : Int) : (flagsOf r).z = decide (r = 0) := rfl
@[simp] theorem flagsOf_n (r : Int) : (flagsOf r).n = decide (r < 0) := rfl
@[simp] theorem flagsOf_nz (r : Int) : (flagsOf r).nz = decide (r ≠ 0) := rfl

/-- The bit numbers of R29. -/
@[simp] theorem getBit_zero (f : Flags) : f.getBit 0 = f.z := rfl
@[simp] theorem getBit_one (f : Flags) : f.getBit 1 = f.n := rfl
@[simp] theorem getBit_two (f : Flags) : f.getBit 2 = f.nz := rfl

/-- A flag reads as it was written, and a write changes no other flag (R29). -/
theorem getBit_setBit (f : Flags) (bit other : Fin 3) (v : Bool) :
    (f.setBit bit v).getBit other = if other = bit then v else f.getBit other := by
  match bit, other with
  | 0, 0 | 0, 1 | 0, 2 | 1, 0 | 1, 1 | 1, 2 | 2, 0 | 2, 1 | 2, 2 => rfl

/-! ### Raising -/

/-- Where `pc` stood makes no difference to what a raise leaves: `pc` is unspecified after it (R195). -/
@[simp] theorem State.raised_setPc (P : Params) (c : Condition) (s : State) (pc : Int) :
    (s.setPc pc).raised P c = s.raised P c := rfl

@[simp] theorem raise_eq (P : Params) (c : Condition) (s : State) : raise P c s = .next (s.raised P c) := rfl

@[simp] theorem halt_eq (P : Params) (s : State) : halt P s = .next (s.stopped P) := rfl

@[simp] theorem attempt_ok {α : Type} (P : Params) (s : State) (a : α) (go : α → Result) :
    attempt P s (.ok a) go = go a := rfl

@[simp] theorem attempt_error {α : Type} (P : Params) (s : State) (c : Condition) (go : α → Result) :
    attempt P s (.error c) go = .next (s.raised P c) := rfl

/-! ### Completing -/

@[simp] theorem finish_eq (P : Params) (s : State) : finish P s = .next (s.completed P (s.pc + 1)) := rfl

@[simp] theorem jumpTo_eq (P : Params) (target : Int) (s : State) :
    jumpTo P target s = .next (s.completed P target) := rfl

theorem branch_eq (P : Params) (taken : Bool) (target : Int) (s : State) :
    branch P taken target s = .next (s.completed P (if taken then target else s.pc + 1)) := by
  cases taken <;> rfl

@[simp] theorem resultToReg_eq (P : Params) (dest : Nat) (r : Int) (s : State) :
    resultToReg P dest r s = .next (((s.setX dest r).setFlags r).completed P (s.pc + 1)) := rfl

theorem resultToMem_ok {P : Params} {dest : Int} (r : Int) {s : State} (h : inMemory P dest) :
    resultToMem P dest r s = .next (((s.setCell dest.toNat r).setFlags r).completed P (s.pc + 1)) := by
  simp [resultToMem, memWrite_ok h]

theorem resultToMem_error {P : Params} {dest : Int} (r : Int) {s : State} (h : ¬ inMemory P dest) :
    resultToMem P dest r s = .next (s.raised P (.outOfBounds dest)) := by
  simp [resultToMem, memWrite_error h]

/-! ### Consuming operand cells -/

/-- Everything `checkReg` can do (R24). -/
theorem checkReg_cases (P : Params) (i : Int) :
    (∃ r : Reg P, i = r.id ∧ checkReg P i = .ok r) ∨
    ((i < 0 ∨ (P.ngpr : Int) ≤ i) ∧ checkReg P i = .error (.invalidRegister i)) := by
  unfold checkReg
  split
  · next h => exact .inl ⟨_, (Int.toNat_of_nonneg h.1).symm, rfl⟩
  · next h => exact .inr ⟨(not_and_or.mp h).imp not_le.mp not_lt.mp, rfl⟩

@[simp] theorem checkReg_id {P : Params} (r : Reg P) : checkReg P r.id = .ok r := by
  unfold checkReg
  split
  · next h => simp [Reg.id]
  · next h => exact absurd ⟨Int.natCast_nonneg _, by exact_mod_cast r.isLt⟩ h

theorem checkReg_error {P : Params} {i : Int} (h : i < 0 ∨ (P.ngpr : Int) ≤ i) :
    checkReg P i = .error (.invalidRegister i) :=
  dif_neg (not_and_or.mpr (h.imp not_le.mpr not_lt.mpr))

/-- Everything `fetchOperand` can do (R101). -/
theorem fetchOperand_cases (P : Params) (s : State) (go : State → Result) :
    (inMemory P (s.pc + 1) ∧ fetchOperand P s go = go (s.setPc (s.pc + 1))) ∨
    (¬ inMemory P (s.pc + 1) ∧ fetchOperand P s go = .next (s.raised P (.outOfBounds (s.pc + 1)))) := by
  by_cases h : inMemory P (s.pc + 1)
  · exact .inl ⟨h, by simp [fetchOperand, memRead_ok h]⟩
  · exact .inr ⟨h, by simp [fetchOperand, memRead_error h]⟩

theorem fetchOperand_go {P : Params} {s : State} {go : State → Result} (h : inMemory P (s.pc + 1)) :
    fetchOperand P s go = go (s.setPc (s.pc + 1)) := by
  simp [fetchOperand, memRead_ok h]

theorem fetchOperand_raises {P : Params} {s : State} {go : State → Result} (h : ¬ inMemory P (s.pc + 1)) :
    fetchOperand P s go = .next (s.raised P (.outOfBounds (s.pc + 1))) := by
  simp [fetchOperand, memRead_error h]

/-- Everything `fetchRegister` can do (R101, R106). -/
theorem fetchRegister_cases (P : Params) (id : Int) (s : State) (go : Reg P → State → Result) :
    (∃ r : Reg P, inMemory P (s.pc + 1) ∧ id = r.id ∧ fetchRegister P id s go = go r (s.setPc (s.pc + 1))) ∨
    (¬ inMemory P (s.pc + 1) ∧ fetchRegister P id s go = .next (s.raised P (.outOfBounds (s.pc + 1)))) ∨
    (inMemory P (s.pc + 1) ∧ (id < 0 ∨ (P.ngpr : Int) ≤ id) ∧
      fetchRegister P id s go = .next (s.raised P (.invalidRegister id))) := by
  unfold fetchRegister
  rcases fetchOperand_cases P s (fun s => attempt P s (checkReg P id) fun r => go r s) with ⟨h, e⟩ | ⟨h, e⟩
  · rw [e]
    rcases checkReg_cases P id with ⟨r, hr, e'⟩ | ⟨hr, e'⟩
    · exact .inl ⟨r, h, hr, by simp [e']⟩
    · exact .inr (.inr ⟨h, hr, by simp [e']⟩)
  · exact .inr (.inl ⟨h, e⟩)

theorem fetchRegister_go {P : Params} {s : State} {go : Reg P → State → Result} (r : Reg P)
    (h : inMemory P (s.pc + 1)) : fetchRegister P r.id s go = go r (s.setPc (s.pc + 1)) := by
  simp [fetchRegister, fetchOperand_go h]

theorem fetchRegister_invalid {P : Params} {s : State} {go : Reg P → State → Result} {id : Int}
    (h : inMemory P (s.pc + 1)) (hid : id < 0 ∨ (P.ngpr : Int) ≤ id) :
    fetchRegister P id s go = .next (s.raised P (.invalidRegister id)) := by
  simp [fetchRegister, fetchOperand_go h, checkReg_error hid]

theorem fetchRegister_raises {P : Params} {s : State} {go : Reg P → State → Result} {id : Int}
    (h : ¬ inMemory P (s.pc + 1)) :
    fetchRegister P id s go = .next (s.raised P (.outOfBounds (s.pc + 1))) := by
  simp [fetchRegister, fetchOperand_raises h]

@[simp] theorem State.setPc_setPc (s : State) (p q : Int) : (s.setPc p).setPc q = s.setPc q := rfl

theorem pc_add_one_one (p : Int) : p + 1 + 1 = p + 2 := by ring
theorem pc_add_two_one (p : Int) : p + 2 + 1 = p + 3 := by ring


/-- Everything format `RR` can do (R106 step 1, R197). -/
theorem formRR_cases (P : Params) (regA regB : Int) (s : State) (go : Reg P → Reg P → State → Result) :
    (∃ a b : Reg P, inMemory P (s.pc + 1) ∧ inMemory P (s.pc + 2) ∧ regA = a.id ∧ regB = b.id ∧
      formRR P regA regB s go = go a b (s.setPc (s.pc + 2))) ∨
    (¬ inMemory P (s.pc + 1) ∧ formRR P regA regB s go = .next (s.raised P (.outOfBounds (s.pc + 1)))) ∨
    (inMemory P (s.pc + 1) ∧ (regA < 0 ∨ (P.ngpr : Int) ≤ regA) ∧
      formRR P regA regB s go = .next (s.raised P (.invalidRegister regA))) ∨
    (∃ a : Reg P, inMemory P (s.pc + 1) ∧ regA = a.id ∧ ¬ inMemory P (s.pc + 2) ∧
      formRR P regA regB s go = .next (s.raised P (.outOfBounds (s.pc + 2)))) ∨
    (∃ a : Reg P, inMemory P (s.pc + 1) ∧ regA = a.id ∧ inMemory P (s.pc + 2) ∧
      (regB < 0 ∨ (P.ngpr : Int) ≤ regB) ∧
      formRR P regA regB s go = .next (s.raised P (.invalidRegister regB))) := by
  unfold formRR
  rcases fetchRegister_cases P regA s (fun a s => fetchRegister P regB s fun b s => go a b s) with
    ⟨a, h1, ha, e⟩ | ⟨h1, e⟩ | ⟨h1, ha, e⟩
  · rw [e]
    rcases fetchRegister_cases P regB (s.setPc (s.pc + 1)) (fun b s => go a b s) with
      ⟨b, h2, hb, e⟩ | ⟨h2, e⟩ | ⟨h2, hb, e⟩ <;>
      simp only [State.setPc_pc, State.setPc_setPc, State.raised_setPc, pc_add_one_one] at h2 e
    · exact .inl ⟨a, b, h1, h2, ha, hb, e⟩
    · exact .inr (.inr (.inr (.inl ⟨a, h1, ha, h2, e⟩)))
    · exact .inr (.inr (.inr (.inr ⟨a, h1, ha, h2, hb, e⟩)))
  · exact .inr (.inl ⟨h1, e⟩)
  · exact .inr (.inr (.inl ⟨h1, ha, e⟩))

/-- Everything a plain cell and then a register cell can do: formats `MR` and `IR` (R106 step 1, R197). -/
theorem formPlainReg_cases (P : Params) (reg : Int) (s : State) (go : Reg P → State → Result) :
    (∃ b : Reg P, inMemory P (s.pc + 1) ∧ inMemory P (s.pc + 2) ∧ reg = b.id ∧
      formPlainReg P reg s go = go b (s.setPc (s.pc + 2))) ∨
    (¬ inMemory P (s.pc + 1) ∧ formPlainReg P reg s go = .next (s.raised P (.outOfBounds (s.pc + 1)))) ∨
    (inMemory P (s.pc + 1) ∧ ¬ inMemory P (s.pc + 2) ∧
      formPlainReg P reg s go = .next (s.raised P (.outOfBounds (s.pc + 2)))) ∨
    (inMemory P (s.pc + 1) ∧ inMemory P (s.pc + 2) ∧ (reg < 0 ∨ (P.ngpr : Int) ≤ reg) ∧
      formPlainReg P reg s go = .next (s.raised P (.invalidRegister reg))) := by
  unfold formPlainReg
  rcases fetchOperand_cases P s (fun s => fetchRegister P reg s go) with ⟨h1, e⟩ | ⟨h1, e⟩
  · rw [e]
    rcases fetchRegister_cases P reg (s.setPc (s.pc + 1)) go with ⟨b, h2, hb, e⟩ | ⟨h2, e⟩ | ⟨h2, hb, e⟩ <;>
      simp only [State.setPc_pc, State.setPc_setPc, State.raised_setPc, pc_add_one_one] at h2 e
    · exact .inl ⟨b, h1, h2, hb, e⟩
    · exact .inr (.inr (.inl ⟨h1, h2, e⟩))
    · exact .inr (.inr (.inr ⟨h1, h2, hb, e⟩))
  · exact .inr (.inl ⟨h1, e⟩)

/-- Everything format `RM` can do (R106 step 1, R197). -/
theorem formRM_cases (P : Params) (reg : Int) (s : State) (go : Reg P → State → Result) :
    (∃ a : Reg P, inMemory P (s.pc + 1) ∧ inMemory P (s.pc + 2) ∧ reg = a.id ∧
      formRM P reg s go = go a (s.setPc (s.pc + 2))) ∨
    (¬ inMemory P (s.pc + 1) ∧ formRM P reg s go = .next (s.raised P (.outOfBounds (s.pc + 1)))) ∨
    (inMemory P (s.pc + 1) ∧ (reg < 0 ∨ (P.ngpr : Int) ≤ reg) ∧
      formRM P reg s go = .next (s.raised P (.invalidRegister reg))) ∨
    (∃ a : Reg P, inMemory P (s.pc + 1) ∧ reg = a.id ∧ ¬ inMemory P (s.pc + 2) ∧
      formRM P reg s go = .next (s.raised P (.outOfBounds (s.pc + 2)))) := by
  unfold formRM
  rcases fetchRegister_cases P reg s (fun a s => fetchOperand P s fun s => go a s) with
    ⟨a, h1, ha, e⟩ | ⟨h1, e⟩ | ⟨h1, ha, e⟩
  · rw [e]
    rcases fetchOperand_cases P (s.setPc (s.pc + 1)) (fun s => go a s) with ⟨h2, e⟩ | ⟨h2, e⟩ <;>
      simp only [State.setPc_pc, State.setPc_setPc, State.raised_setPc, pc_add_one_one] at h2 e
    · exact .inl ⟨a, h1, h2, ha, e⟩
    · exact .inr (.inr (.inr ⟨a, h1, ha, h2, e⟩))
  · exact .inr (.inl ⟨h1, e⟩)
  · exact .inr (.inr (.inl ⟨h1, ha, e⟩))

/-- Everything format `RRT` can do (R106 step 1, R197). -/
theorem formRRT_cases (P : Params) (regA regB : Int) (s : State) (go : Reg P → Reg P → State → Result) :
    (∃ a b : Reg P, inMemory P (s.pc + 1) ∧ inMemory P (s.pc + 2) ∧ inMemory P (s.pc + 3) ∧ regA = a.id ∧ regB = b.id ∧
      formRRT P regA regB s go = go a b (s.setPc (s.pc + 3))) ∨
    (¬ inMemory P (s.pc + 1) ∧ formRRT P regA regB s go = .next (s.raised P (.outOfBounds (s.pc + 1)))) ∨
    (inMemory P (s.pc + 1) ∧ (regA < 0 ∨ (P.ngpr : Int) ≤ regA) ∧
      formRRT P regA regB s go = .next (s.raised P (.invalidRegister regA))) ∨
    (∃ a : Reg P, inMemory P (s.pc + 1) ∧ regA = a.id ∧ ¬ inMemory P (s.pc + 2) ∧
      formRRT P regA regB s go = .next (s.raised P (.outOfBounds (s.pc + 2)))) ∨
    (∃ a : Reg P, inMemory P (s.pc + 1) ∧ regA = a.id ∧ inMemory P (s.pc + 2) ∧
      (regB < 0 ∨ (P.ngpr : Int) ≤ regB) ∧
      formRRT P regA regB s go = .next (s.raised P (.invalidRegister regB))) ∨
    (∃ a b : Reg P, inMemory P (s.pc + 1) ∧ inMemory P (s.pc + 2) ∧ regA = a.id ∧ regB = b.id ∧
      ¬ inMemory P (s.pc + 3) ∧ formRRT P regA regB s go = .next (s.raised P (.outOfBounds (s.pc + 3)))) := by
  unfold formRRT
  rcases formRR_cases P regA regB s (fun a b s => fetchOperand P s fun s => go a b s) with
    ⟨a, b, h1, h2, ha, hb, e⟩ | ⟨h1, e⟩ | ⟨h1, ha, e⟩ | ⟨a, h1, ha, h2, e⟩ | ⟨a, h1, ha, h2, hb, e⟩
  · rw [e]
    rcases fetchOperand_cases P (s.setPc (s.pc + 2)) (fun s => go a b s) with ⟨h3, e⟩ | ⟨h3, e⟩ <;>
      simp only [State.setPc_pc, State.setPc_setPc, State.raised_setPc, pc_add_two_one] at h3 e
    · exact .inl ⟨a, b, h1, h2, h3, ha, hb, e⟩
    · exact .inr (.inr (.inr (.inr (.inr ⟨a, b, h1, h2, ha, hb, h3, e⟩))))
  · exact .inr (.inl ⟨h1, e⟩)
  · exact .inr (.inr (.inl ⟨h1, ha, e⟩))
  · exact .inr (.inr (.inr (.inl ⟨a, h1, ha, h2, e⟩)))
  · exact .inr (.inr (.inr (.inr (.inl ⟨a, h1, ha, h2, hb, e⟩))))

/-! ### Formats whose operand cells are in memory and whose register operands are valid -/

theorem formRR_go {P : Params} {s : State} {go : Reg P → Reg P → State → Result} (a b : Reg P)
    (h1 : inMemory P (s.pc + 1)) (h2 : inMemory P (s.pc + 2)) :
    formRR P a.id b.id s go = go a b (s.setPc (s.pc + 2)) := by
  rw [formRR, fetchRegister_go a h1, fetchRegister_go b (by simpa [pc_add_one_one] using h2)]
  simp [pc_add_one_one]

theorem formPlainReg_go {P : Params} {s : State} {go : Reg P → State → Result} (b : Reg P)
    (h1 : inMemory P (s.pc + 1)) (h2 : inMemory P (s.pc + 2)) :
    formPlainReg P b.id s go = go b (s.setPc (s.pc + 2)) := by
  rw [formPlainReg, fetchOperand_go h1, fetchRegister_go b (by simpa [pc_add_one_one] using h2)]
  simp [pc_add_one_one]

theorem formRM_go {P : Params} {s : State} {go : Reg P → State → Result} (a : Reg P)
    (h1 : inMemory P (s.pc + 1)) (h2 : inMemory P (s.pc + 2)) :
    formRM P a.id s go = go a (s.setPc (s.pc + 2)) := by
  rw [formRM, fetchRegister_go a h1, fetchOperand_go (by simpa [pc_add_one_one] using h2)]
  simp [pc_add_one_one]

theorem formR_go {P : Params} {s : State} {go : Reg P → State → Result} (a : Reg P) (h1 : inMemory P (s.pc + 1)) :
    formR P a.id s go = go a (s.setPc (s.pc + 1)) :=
  fetchRegister_go a h1

theorem formPlain_go {P : Params} {s : State} {go : State → Result} (h1 : inMemory P (s.pc + 1)) :
    formPlain P s go = go (s.setPc (s.pc + 1)) :=
  fetchOperand_go h1

theorem formRRT_go {P : Params} {s : State} {go : Reg P → Reg P → State → Result} (a b : Reg P)
    (h1 : inMemory P (s.pc + 1)) (h2 : inMemory P (s.pc + 2)) (h3 : inMemory P (s.pc + 3)) :
    formRRT P a.id b.id s go = go a b (s.setPc (s.pc + 3)) := by
  rw [formRRT, formRR_go a b h1 h2, fetchOperand_go (by simpa [pc_add_two_one] using h3)]
  simp [pc_add_two_one]

end Sys2Proof.Machine
end

