-- ==== Sys2Proof/Laws/Datapath.lean ====
section
/-! SUPPORT. The buses, the ALU and FETCH: what each leaves, field by field (40_datapath_and_cycle.md R90-R98). -/

namespace Sys2Proof.Machine

/-- `get` after `put` (R90). -/
@[simp] theorem busGet_busPut (b c : Bus) (v : Int) (s : State) :
    busGet (busPut b v s) c = if c = b then v else busGet s c := by
  cases b <;> cases c <;> rfl

@[simp] theorem busPut_mem (b : Bus) (v : Int) (s : State) : (busPut b v s).mem = s.mem := by cases b <;> rfl
@[simp] theorem busPut_gpr (b : Bus) (v : Int) (s : State) : (busPut b v s).gpr = s.gpr := by cases b <;> rfl
@[simp] theorem busPut_pc (b : Bus) (v : Int) (s : State) : (busPut b v s).pc = s.pc := by cases b <;> rfl
@[simp] theorem busPut_ir (b : Bus) (v : Int) (s : State) : (busPut b v s).ir = s.ir := by cases b <;> rfl
@[simp] theorem busPut_flags (b : Bus) (v : Int) (s : State) : (busPut b v s).flags = s.flags := by cases b <;> rfl
@[simp] theorem busPut_ctl (b : Bus) (v : Int) (s : State) : (busPut b v s).ctl = s.ctl := by cases b <;> rfl
@[simp] theorem busPut_draws (b : Bus) (v : Int) (s : State) : (busPut b v s).draws = s.draws := by cases b <;> rfl
@[simp] theorem busPut_x (b : Bus) (v : Int) (s : State) (i : Nat) : (busPut b v s).x i = s.x i := by cases b <;> rfl
@[simp] theorem busPut_cell (b : Bus) (v : Int) (s : State) (a : Nat) : (busPut b v s).cell a = s.cell a := by
  cases b <;> rfl

@[simp] theorem aluGet_aluSet (p q : AluSlot) (v : Int) (s : State) :
    aluGet (aluSet p v s) q = if q = p then v else aluGet s q := by
  cases p <;> cases q <;> rfl

@[simp] theorem busGet_aluSet (p : AluSlot) (v : Int) (s : State) (b : Bus) :
    busGet (aluSet p v s) b = busGet s b := by
  cases p <;> cases b <;> rfl

@[simp] theorem aluGet_busPut (b : Bus) (v : Int) (s : State) (p : AluSlot) :
    aluGet (busPut b v s) p = aluGet s p := by
  cases b <;> cases p <;> rfl

@[simp] theorem aluSet_mem (p : AluSlot) (v : Int) (s : State) : (aluSet p v s).mem = s.mem := by cases p <;> rfl
@[simp] theorem aluSet_gpr (p : AluSlot) (v : Int) (s : State) : (aluSet p v s).gpr = s.gpr := by cases p <;> rfl
@[simp] theorem aluSet_pc (p : AluSlot) (v : Int) (s : State) : (aluSet p v s).pc = s.pc := by cases p <;> rfl
@[simp] theorem aluSet_ir (p : AluSlot) (v : Int) (s : State) : (aluSet p v s).ir = s.ir := by cases p <;> rfl
@[simp] theorem aluSet_flags (p : AluSlot) (v : Int) (s : State) : (aluSet p v s).flags = s.flags := by cases p <;> rfl
@[simp] theorem aluSet_ctl (p : AluSlot) (v : Int) (s : State) : (aluSet p v s).ctl = s.ctl := by cases p <;> rfl
@[simp] theorem aluSet_draws (p : AluSlot) (v : Int) (s : State) : (aluSet p v s).draws = s.draws := by cases p <;> rfl

@[simp] theorem runMicro_nil (P : Params) (s : State) : runMicro P [] s = .ok s := rfl

/-- A micro-operation that raises nothing is followed by the rest (R109). -/
theorem runMicro_cons_ok {P : Params} {op : MicroOp} {ops : List MicroOp} {s t : State} (h : microStep P op s = .ok t) :
    runMicro P (op :: ops) s = runMicro P ops t := by
  simp [runMicro, h]

/-- A micro-operation that raises ends the sequence with the state before it (R195). -/
theorem runMicro_cons_error {P : Params} {op : MicroOp} {ops : List MicroOp} {s : State} {c : Condition}
    (h : microStep P op s = .error c) : runMicro P (op :: ops) s = .error (c, s) := by
  simp [runMicro, h]

/-- One sequence after another. -/
theorem runMicro_append (P : Params) (xs ys : List MicroOp) (s : State) :
    runMicro P (xs ++ ys) s =
      match runMicro P xs s with
      | .ok t => runMicro P ys t
      | .error e => .error e := by
  induction xs generalizing s with
  | nil => rfl
  | cons op ops ih =>
    simp only [List.cons_append, runMicro]
    cases microStep P op s <;> simp [ih]

/-- The state a fetch that finds its cell leaves: the opcode stands in `ir` and on the external bus. -/
def State.fetched (s : State) : State :=
  { s with ir := s.cell s.pc.toNat, ctl := .execute, hid := { s.hid with ext := s.cell s.pc.toNat } }

/-- The state a fetch out of bounds leaves: the address stands on the external bus. -/
def State.fetchFaulted (s : State) : State :=
  { s with ctl := .faulted (.outOfBounds s.pc), hid := { s.hid with ext := s.pc } }

@[simp] theorem State.fetched_mem (s : State) : s.fetched.mem = s.mem := rfl
@[simp] theorem State.fetched_gpr (s : State) : s.fetched.gpr = s.gpr := rfl
@[simp] theorem State.fetched_pc (s : State) : s.fetched.pc = s.pc := rfl
@[simp] theorem State.fetched_ir (s : State) : s.fetched.ir = s.cell s.pc.toNat := rfl
@[simp] theorem State.fetched_flags (s : State) : s.fetched.flags = s.flags := rfl
@[simp] theorem State.fetched_ctl (s : State) : s.fetched.ctl = .execute := rfl
@[simp] theorem State.fetched_draws (s : State) : s.fetched.draws = s.draws := rfl
@[simp] theorem State.fetched_x (s : State) (i : Nat) : s.fetched.x i = s.x i := rfl
@[simp] theorem State.fetched_cell (s : State) (a : Nat) : s.fetched.cell a = s.cell a := rfl
@[simp] theorem State.fetchFaulted_mem (s : State) : s.fetchFaulted.mem = s.mem := rfl
@[simp] theorem State.fetchFaulted_gpr (s : State) : s.fetchFaulted.gpr = s.gpr := rfl
@[simp] theorem State.fetchFaulted_pc (s : State) : s.fetchFaulted.pc = s.pc := rfl
@[simp] theorem State.fetchFaulted_ir (s : State) : s.fetchFaulted.ir = s.ir := rfl
@[simp] theorem State.fetchFaulted_flags (s : State) : s.fetchFaulted.flags = s.flags := rfl
@[simp] theorem State.fetchFaulted_ctl (s : State) : s.fetchFaulted.ctl = .faulted (.outOfBounds s.pc) := rfl
@[simp] theorem State.fetchFaulted_x (s : State) (i : Nat) : s.fetchFaulted.x i = s.x i := rfl
@[simp] theorem State.fetchFaulted_cell (s : State) (a : Nat) : s.fetchFaulted.cell a = s.cell a := rfl

/-- Everything FETCH can do (R98). -/
theorem fetchOpcode_cases (P : Params) (s : State) :
    (inMemory P s.pc ∧ fetchOpcode P s = .ok s.fetched) ∨
    (¬ inMemory P s.pc ∧ fetchOpcode P s = .error s.fetchFaulted) := by
  by_cases h : inMemory P s.pc
  · left
    refine ⟨h, ?_⟩
    have hm : memRead P s.pc (regRead .pc s) = .ok (s.cell s.pc.toNat) := memRead_ok h
    have hr : microStep P .memRead (regRead .pc s) = .ok (busPut .ext (s.cell s.pc.toNat) (regRead .pc s)) := by
      simp only [microStep, busMemRead]
      rw [show busGet (regRead .pc s) .ext = s.pc from rfl, hm]
    unfold fetchOpcode
    rw [runMicro_cons_ok (t := regRead .pc s) rfl, runMicro_cons_ok hr,
      runMicro_cons_ok (t := regStore .ir _) rfl]
    rfl
  · right
    refine ⟨h, ?_⟩
    have hr : microStep P .memRead (regRead .pc s) = .error (.outOfBounds s.pc) := by
      simp only [microStep, busMemRead]
      rw [show busGet (regRead .pc s) .ext = s.pc from rfl, memRead_error h]
    unfold fetchOpcode
    rw [runMicro_cons_ok (t := regRead .pc s) rfl, runMicro_cons_error hr]
    rfl

theorem fetchOpcode_ok {P : Params} {s : State} (h : inMemory P s.pc) : fetchOpcode P s = .ok s.fetched := by
  rcases fetchOpcode_cases P s with ⟨_, e⟩ | ⟨h', _⟩
  · exact e
  · exact absurd h h'

theorem fetchOpcode_error {P : Params} {s : State} (h : ¬ inMemory P s.pc) :
    fetchOpcode P s = .error s.fetchFaulted := by
  rcases fetchOpcode_cases P s with ⟨h', _⟩ | ⟨_, e⟩
  · exact absurd h' h
  · exact e

end Sys2Proof.Machine
end

