-- ==== Sys2Proof/Laws/Decode.lean ====
section
/-! SUPPORT. What the decoder does with an opcode cell and with the cells a step hands it. -/

namespace Sys2Proof

/-- Every mnemonic is in the canonical list (R71). -/
theorem mnemonic_mem_canonical (m : Mnemonic) : m ∈ Mnemonic.canonical := by cases m <;> decide

/-- The mnemonic found has the opcode that was looked up. -/
theorem mnemonicOf_some {P : Params} {v : Int} {m : Mnemonic} (h : mnemonicOf P v = some m) : P.opcodeOf m = v := by
  have := List.find?_some h
  simpa using this

/-- No mnemonic is found exactly for the values that no mnemonic has as its opcode (R76). -/
theorem mnemonicOf_eq_none_iff {P : Params} {v : Int} : mnemonicOf P v = none ↔ ∀ m, P.opcodeOf m ≠ v := by
  simp only [mnemonicOf, List.find?_eq_none, beq_iff_eq]
  exact ⟨fun h m => h m (mnemonic_mem_canonical m), fun h m _ => h m⟩

/-- With an injective `OPCODE_OF`, a mnemonic's opcode finds the mnemonic. -/
theorem mnemonicOf_opcodeOf {P : Params} (h : ∀ m n : Mnemonic, P.opcodeOf m = P.opcodeOf n → m = n) (m : Mnemonic) :
    mnemonicOf P (P.opcodeOf m) = some m := by
  cases e : mnemonicOf P (P.opcodeOf m) with
  | none => exact absurd rfl (mnemonicOf_eq_none_iff.1 e m)
  | some n => rw [h n m (mnemonicOf_some e)]

/-- Three operand cells are enough for every row (R74). -/
theorem decodeOperands_three (m : Mnemonic) (c1 c2 c3 : Int) :
    ∃ i rest, decodeOperands m [c1, c2, c3] = .ok (i, rest) := by
  cases m <;> exact ⟨_, _, rfl⟩

/-- Four cells are rejected only for an undecodable opcode (R75, R76). -/
theorem decode_four_cases (P : Params) (c0 c1 c2 c3 : Int) :
    (∃ i rest, decode P [c0, c1, c2, c3] = .ok (i, rest)) ∨
    (mnemonicOf P c0 = none ∧ decode P [c0, c1, c2, c3] = .error (.undecodable c0)) := by
  cases e : mnemonicOf P c0 with
  | none => exact .inr ⟨rfl, by simp only [decode, e]⟩
  | some m =>
    obtain ⟨i, rest, h⟩ := decodeOperands_three m c1 c2 c3
    exact .inl ⟨i, rest, by simp only [decode, e, h]⟩

end Sys2Proof
end

