-- ==== Sys2Proof/Laws/Cycle.lean ====
section
/-! SUPPORT. Everything DECODE/EXECUTE and the instruction step can do, for any parameters and any dispatch
(40_datapath_and_cycle.md R97-R99, R110). -/

namespace Sys2Proof.Machine

/-- Everything DECODE/EXECUTE can do: run the instruction the cells decode to, or halt because no mnemonic has the opcode
in `ir` (R99). -/
theorem decodeExecute_cases (P : Params) (dispatch : Instr → State → Result) (s : State) :
    (∃ i rest, decode P (instructionCells P s) = .ok (i, rest) ∧ decodeExecute P dispatch s = dispatch i s) ∨
    (mnemonicOf P s.ir = none ∧ decodeExecute P dispatch s = .next (s.stopped P)) := by
  unfold decodeExecute
  rcases decode_four_cases P s.ir (cellOrZero P s (s.pc + 1)) (cellOrZero P s (s.pc + 2)) (cellOrZero P s (s.pc + 3)) with
    ⟨i, rest, h⟩ | ⟨hm, h⟩
  · exact .inl ⟨i, rest, h, by rw [instructionCells, h]⟩
  · exact .inr ⟨hm, by rw [instructionCells, h]; rfl⟩

/-- Everything the instruction step can do, by control state (R97, R98, R110). -/
theorem cycle_cases (P : Params) (dispatch : Instr → State → Result) (s : State) :
    (s.ctl = .fetch ∧ inMemory P s.pc ∧ cycle P dispatch s = decodeExecute P dispatch s.fetched) ∨
    (s.ctl = .fetch ∧ ¬ inMemory P s.pc ∧ cycle P dispatch s = .next s.fetchFaulted) ∨
    (s.ctl = .execute ∧ cycle P dispatch s = decodeExecute P dispatch s) ∨
    (s.ctl = .halted ∧ cycle P dispatch s = .fault .halted) ∨
    (∃ c, s.ctl = .faulted c ∧ cycle P dispatch s = .fault (.faulted c)) := by
  unfold cycle
  cases h : s.ctl with
  | fetch =>
    rcases fetchOpcode_cases P s with ⟨hp, e⟩ | ⟨hp, e⟩
    · exact .inl ⟨rfl, hp, by simp only [e]⟩
    · exact .inr (.inl ⟨rfl, hp, by simp only [e]⟩)
  | execute => exact .inr (.inr (.inl ⟨rfl, rfl⟩))
  | halted => exact .inr (.inr (.inr (.inl ⟨rfl, rfl⟩)))
  | faulted c => exact .inr (.inr (.inr (.inr ⟨c, rfl, rfl⟩)))

end Sys2Proof.Machine
end

