-- ==== Sys2Proof/Laws/Microprogram.lean ====
section
/-! SUPPORT. What the flag accesses of a microprogram do (40_datapath_and_cycle.md R92, R96): the three `setBit`s of a
result are `setFlags`, and the microprograms of `jz`, `jn` and `jnz` reach the net effects of R166-R168 (R105). -/

namespace Sys2Proof.Machine

/-- `setBit` of each flag for one result is `setFlags` of it (R30). -/
theorem runMicro_setBits (P : Params) (b : Bus) (s : State) :
    runMicro P [.setBit 0 b, .setBit 1 b, .setBit 2 b] s = .ok (s.setFlags (busGet s b)) := by
  cases b <;> rfl

/-- Two states agree on memory, registers and flags. -/
abbrev State.SameProgramState (s t : State) : Prop := t.mem = s.mem ∧ t.gpr = s.gpr ∧ t.flags = s.flags

/-- Everything the `pc` advance can do (R101, R102). -/
theorem runMicro_microAdvance (slot : AluSlot) (s : State) :
    ∃ t, runMicro Config.hardware (microAdvance slot) s = .ok t ∧ t.pc = s.pc + 1 ∧ s.SameProgramState t := by
  cases slot <;> exact ⟨_, rfl, rfl, rfl, rfl, rfl⟩

/-- Everything the micro-operation `memRead` can do (R95). -/
theorem microStep_memRead_cases (P : Params) (s : State) :
    (inMemory P s.hid.ext ∧ microStep P .memRead s = .ok (busPut .ext (s.cell s.hid.ext.toNat) s)) ∨
    (¬ inMemory P s.hid.ext ∧ microStep P .memRead s = .error (.outOfBounds s.hid.ext)) := by
  simp only [microStep, busMemRead]
  rw [show busGet s .ext = s.hid.ext from rfl]
  rcases memRead_cases P s.hid.ext s with ⟨h, e⟩ | ⟨h, e⟩
  · exact .inl ⟨h, by rw [e]⟩
  · exact .inr ⟨h, by rw [e]⟩

/-- Everything `fetchOperand` can do at bus level (R101): the operand is left on the external bus, or the access raises. -/
theorem runMicro_microFetchOperand (slot : AluSlot) (s : State) :
    (inMemory Config.hardware (s.pc + 1) ∧ ∃ t, runMicro Config.hardware (microFetchOperand slot) s = .ok t ∧
      t.pc = s.pc + 1 ∧ t.hid.ext = s.cell (s.pc + 1).toNat ∧ s.SameProgramState t) ∨
    (¬ inMemory Config.hardware (s.pc + 1) ∧ ∃ t, runMicro Config.hardware (microFetchOperand slot) s =
      .error (.outOfBounds (s.pc + 1), t) ∧ s.SameProgramState t) := by
  obtain ⟨a, ha, hpc, hmem, hgpr, hflags⟩ := runMicro_microAdvance slot s
  rw [microFetchOperand, runMicro_append, ha]
  dsimp only
  rw [runMicro_cons_ok (t := regRead .pc a) rfl]
  have hext : (regRead .pc a).hid.ext = s.pc + 1 := hpc
  rcases microStep_memRead_cases Config.hardware (regRead .pc a) with ⟨h, e⟩ | ⟨h, e⟩ <;> rw [hext] at h e
  · exact .inl ⟨h, busPut .ext _ _, runMicro_cons_ok e, hpc, congrArg (Cells.read · _) hmem, hmem, hgpr, hflags⟩
  · exact .inr ⟨h, _, runMicro_cons_error e, hmem, hgpr, hflags⟩

/-- Everything the microprogram of a jump on a flag can do (R103, R166-R168). -/
theorem runProgram_microFlagJump (bit : Fin 3) (s : State) :
    (inMemory Config.hardware (s.pc + 1) ∧ ∃ t, runProgram Config.hardware (microFlagJump bit) s = .ok t ∧
      t.pc = (if s.flags.getBit bit then s.cell (s.pc + 1).toNat else s.pc + 1 + 1) ∧ s.SameProgramState t) ∨
    (¬ inMemory Config.hardware (s.pc + 1) ∧ ∃ t, runProgram Config.hardware (microFlagJump bit) s =
      .error (.outOfBounds (s.pc + 1), t) ∧ s.SameProgramState t) := by
  rcases runMicro_microFetchOperand .slot0 s with ⟨h, t, e, hpc, hext, hmem, hgpr, hflags⟩ | ⟨h, t, e, hsame⟩
  · refine .inl ⟨h, ?_⟩
    simp only [microFlagJump, runProgram, e, hflags]
    split
    · exact ⟨_, rfl, hext, hmem, hgpr, hflags⟩
    · obtain ⟨u, hu, hupc, humem, hugpr, huflags⟩ := runMicro_microAdvance .slot0 t
      exact ⟨u, hu, by rw [hupc, hpc], humem.trans hmem, hugpr.trans hgpr, huflags.trans hflags⟩
  · exact .inr ⟨h, t, by simp only [microFlagJump, runProgram, e], hsame⟩

/-- A microprogram's outcome is that of an instruction: the same state as far as a program can see it, or the same
condition (R105). -/
abbrev ReachesNetEffect (micro : Except (Condition × State) State) (r : Result) : Prop :=
  (∃ t u, micro = .ok t ∧ r = .next u ∧ u.ctl = .fetch ∧ u.pc = t.pc ∧ t.SameProgramState u) ∨
  ∃ c t u, micro = .error (c, t) ∧ r = .next u ∧ u.ctl = .faulted c ∧ t.SameProgramState u

/-- The form the meanings of `jz`, `jn` and `jnz` share is what their microprogram reaches. -/
theorem microFlagJump_reaches (bit : Fin 3) (s : State) :
    ReachesNetEffect (runProgram Config.hardware (microFlagJump bit) s)
      (formPlain Config.hardware s fun s' =>
        branch Config.hardware (s'.flags.getBit bit) (s.cell (s.pc + 1).toNat) s') := by
  rcases runProgram_microFlagJump bit s with ⟨h, t, e, hpc, hmem, hgpr, hflags⟩ | ⟨h, t, e, hmem, hgpr, hflags⟩
  · exact .inl ⟨t, _, e, (formPlain_go h).trans (branch_eq ..), rfl, hpc.symm, hmem.symm, hgpr.symm, hflags.symm⟩
  · exact .inr ⟨_, t, _, e, fetchOperand_raises h, rfl, hmem.symm, hgpr.symm, hflags.symm⟩

/-- `microJz` reaches the net effect of `jz` (R166). -/
theorem microJz_reaches (s : State) :
    ReachesNetEffect (runProgram Config.hardware microJz s) (exec (.jz (s.cell (s.pc + 1).toNat)) s) :=
  microFlagJump_reaches 0 s

/-- `microJn` reaches the net effect of `jn` (R167). -/
theorem microJn_reaches (s : State) :
    ReachesNetEffect (runProgram Config.hardware microJn s) (exec (.jn (s.cell (s.pc + 1).toNat)) s) :=
  microFlagJump_reaches 1 s

/-- `microJnz` reaches the net effect of `jnz` (R168). -/
theorem microJnz_reaches (s : State) :
    ReachesNetEffect (runProgram Config.hardware microJnz s) (exec (.jnz (s.cell (s.pc + 1).toNat)) s) :=
  microFlagJump_reaches 2 s

end Sys2Proof.Machine
end

