-- ==== Sys2Proof/Tests/Slice0.lean ====
section
/-! SUPPORT. Tests of the model against words and vectors of the spec (30_encoding.md, 95_test_vectors.md), and for every
statement with hypotheses a witness that meets them. A test named `test_V2_<n>` is the vector of that number in
95_test_vectors.md, `test_W<n>` the worked example. -/

namespace Sys2Proof.Tests

open Sys2Proof Sys2Proof.Machine

/-! ### Helpers -/

/-- The reset state with these cells loaded from address 0, these registers, and these further cells. -/
def machine (cells : List Int) (gpr : List Int) (data : List (Nat × Int)) : State :=
  data.foldl (fun s c => s.setCell c.1 c.2) (placeCells Config.hardware cells 0
    { State.reset with gpr := (gpr.zipIdx.filter fun c => c.1 ≠ 0).map fun c => (c.2, c.1) })

/-- The parameters of this hardware with `WIDTH = 8`. -/
def eightBits : Params := { Config.hardware with width := .bits 8 }

/-- One observation of the next state, if there is one. -/
def look {α : Type} (f : State → α) : Result → Option α
  | .next t => some (f t)
  | .fault _ => none
  | .refused _ => none

/-- A register, the flags and `pc`. -/
def reg (r : Nat) (t : State) : Int × Flags × Int := (t.x r, t.flags, t.pc)

/-- A memory cell, the flags and `pc`. -/
def cell (a : Nat) (t : State) : Int × Flags × Int := (t.cell a, t.flags, t.pc)

/-- The control state. -/
def ctl (t : State) : Ctl := t.ctl

/-- The flags of a zero, a positive and a negative result (R32). -/
def zero : Flags := ⟨true, false, false⟩
def positive : Flags := ⟨false, false, true⟩
def negative : Flags := ⟨false, true, true⟩
def none000 : Flags := ⟨false, false, false⟩

/-! ### WellFormed -/

theorem test_wf_accepts_every_register :
    (Instr.addRegReg 0 3).wf Config.hardware = true ∧ (Instr.jlw 3 0 (-1000)).wf Config.hardware = true := by decide

theorem test_wf_refuses_register_4 : (Instr.incReg 4).wf Config.hardware = false := by decide

theorem test_wf_refuses_negative_register : (Instr.moveImmReg 5 (-1)).wf Config.hardware = false := by decide

theorem test_wf_refuses_value_outside_the_width :
    (Instr.ldi 128).wf eightBits = false ∧ (Instr.ldi (-129)).wf eightBits = false ∧
    (Instr.ldi 127).wf eightBits = true ∧ (Instr.ldi (-128)).wf eightBits = true := by decide

/-! ### Decode: the cells are written out from the opcode map R73 and the formats R74 -/

/-- What the decoder reads from these cells on this hardware. -/
def read (cells : List Int) : Option (Instr × List Int) :=
  match decode Config.hardware cells with
  | .ok r => some r
  | .error _ => none

theorem test_decode_add :
    read [0, 0, 1, -1] = some (.addRegReg 0 1, [-1]) ∧ read [1, 100, 2, -1] = some (.addMemReg 100 2, [-1]) ∧
    read [2, 1, 120, -1] = some (.addRegMem 1 120, [-1]) ∧ read [3, 5, 0, -1] = some (.addImmReg 5 0, [-1]) := by decide

theorem test_decode_sub :
    read [4, 0, 1, -1] = some (.subRegReg 0 1, [-1]) ∧ read [5, 100, 1, -1] = some (.subMemReg 100 1, [-1]) ∧
    read [6, 2, 127, -1] = some (.subRegMem 2 127, [-1]) ∧ read [7, 10, 3, -1] = some (.subImmReg 10 3, [-1]) := by decide

theorem test_decode_imul :
    read [8, 0, 1, -1] = some (.imulRegReg 0 1, [-1]) ∧ read [9, 100, 1, -1] = some (.imulMemReg 100 1, [-1]) ∧
    read [10, 1, 126, -1] = some (.imulRegMem 1 126, [-1]) := by decide

theorem test_decode_move :
    read [11, 0, 3, -1] = some (.moveRegReg 0 3, [-1]) ∧ read [12, 100, 2, -1] = some (.moveMemReg 100 2, [-1]) ∧
    read [13, 1, 110, -1] = some (.moveRegMem 1 110, [-1]) ∧ read [14, -1, 2, -1] = some (.moveImmReg (-1) 2, [-1]) := by
  decide

theorem test_decode_inc : read [15, 2, -1] = some (.incReg 2, [-1]) := by decide

theorem test_decode_jumps :
    read [16, 20] = some (.jmp 20, []) ∧ read [17, 12, -1] = some (.jz 12, [-1]) ∧
    read [18, 14, -1] = some (.jn 14, [-1]) ∧ read [19, 9, -1] = some (.jnz 9, [-1]) ∧
    read [20, 0, 1, 40, -1] = some (.jeq 0 1 40, [-1]) ∧ read [21, 0, 1, 22] = some (.jgt 0 1 22, []) ∧
    read [22, 0, 1, 50] = some (.jlw 0 1 50, []) := by decide

theorem test_decode_default_register :
    read [23, 10, -1] = some (.ldi 10, [-1]) ∧ read [24, 100, -1] = some (.read 100, [-1]) ∧
    read [25, 100, -1] = some (.store 100, [-1]) := by decide

theorem test_decode_refuses : read [-1] = none ∧ read [26, 0, 0, 0] = none ∧ read [] = none ∧ read [20, 0, 1] = none := by
  decide

/-- `subImmReg 10 -3` as an opcode-table word of three 32-bit cells (notes/assumptions/11.md). -/
theorem test_table_word : decodeTableWord 96 (7 + 10 * 2 ^ 32 + (2 ^ 32 - 3) * 2 ^ 64) = some (.subImmReg 10 (-3)) := by
  decide

/-- A table word of one cell: the operand cells are 0. -/
theorem test_table_word_short : decodeTableWord 32 20 = some (.jeq 0 0 0) ∧ decodeTableWord 8 26 = none := by decide

theorem test_withFetchWord_runs : look (reg 3) (step (State.reset.withFetchWord 96 (14 + 5 * 2 ^ 32 + 3 * 2 ^ 64))) =
    some (5, none000, 3) := by decide

/-! ### One step of each instruction -/

theorem test_V2_1 : look (reg 2) (step (machine [0, 2, 2, -1] [0, 0, -4, 0] [])) = some (-8, negative, 3) := by decide

theorem test_V2_3 : look (reg 0) (stepWith eightBits (machine [0, 0, 1, -1] [127, 1, 0, 0] [])) =
    some (-128, negative, 3) := by decide

theorem test_V2_6 : look (reg 2) (step (machine [1, 100, 2, -1] [0, 0, -7, 0] [(100, 7)])) = some (0, zero, 3) := by
  decide

theorem test_V2_8 : look ctl (step (machine [1, 128, 9, -1] [0, 0, 0, 0] [])) = some (.faulted (.invalidRegister 9)) := by
  decide

theorem test_V2_9 : look (cell 120) (step (machine [2, 1, 120, -1] [0, 10, 0, 0] [(120, -4)])) =
    some (6, positive, 3) := by decide

theorem test_V2_10 : look (cell 2) (step (machine [2, 0, 2, -1] [5, 0, 0, 0] [])) = some (7, positive, 3) := by decide

theorem test_V2_11 : look (reg 0) (step (machine [3, 5, 0, -1] [-3, 0, 0, 0] [])) = some (2, positive, 3) := by decide

theorem test_V2_12 : look (reg 1) (step (machine [3, 0, 1, -1] [0, 0, 0, 0] [])) = some (0, zero, 3) := by decide

theorem test_V2_13 : look (reg 0) (step (machine [4, 0, 1, -1] [3, 5, 0, 0] [])) = some (-2, negative, 3) := by decide

theorem test_V2_15 : look (reg 0) (stepWith eightBits (machine [4, 0, 1, -1] [-128, 1, 0, 0] [])) =
    some (127, positive, 3) := by decide

theorem test_V2_16 : look (reg 1) (step (machine [5, 100, 1, -1] [0, 9, 0, 0] [(100, 4)])) = some (-5, negative, 3) := by
  decide

theorem test_V2_17 : look (cell 127) (step (machine [6, 2, 127, -1] [0, 0, 1, 0] [(127, 1)])) = some (0, zero, 3) := by
  decide

theorem test_V2_18 : look (reg 3) (step (machine [7, 10, 3, -1] [0, 0, 0, 4] [])) = some (6, positive, 3) := by decide

theorem test_V2_19 : look (reg 1) (step (machine [7, 0, 1, -1] [0, 6, 0, 0] [])) = some (-6, negative, 3) := by decide

theorem test_W2 : look (reg 0) (step (machine [8, 0, 1, -1] [4, -2, 0, 0] [])) = some (-8, negative, 3) := by decide

theorem test_V2_24 : look (reg 0) (stepWith eightBits (machine [8, 0, 1, -1] [16, 16, 0, 0] [])) =
    some (0, zero, 3) := by decide

theorem test_V2_26 : look (reg 1) (step (machine [9, 100, 1, -1] [0, 5, 0, 0] [(100, -3)])) =
    some (-15, negative, 3) := by decide

theorem test_V2_27 : look (fun t => (t.cell 126, t.cell 127, t.flags, t.pc))
    (step (machine [10, 1, 126, -1] [0, 7, 0, 0] [(126, -3)])) = some (-21, -21, negative, 3) := by decide

theorem test_V2_28 : look (fun t => (t.cell 126, t.cell 127, t.flags, t.pc))
    (step (machine [10, 1, 126, -1] [0, 7, 0, 0] [])) = some (0, 0, zero, 3) := by decide

theorem test_V2_32 : look (reg 3) (step (machine [11, 0, 3, -1] [9, 0, 0, 1] [])) = some (9, none000, 3) := by decide

theorem test_V2_33 : look (reg 2) (step (machine [12, 100, 2, -1] [0, 0, 0, 0] [(100, -6)])) =
    some (-6, none000, 3) := by decide

theorem test_V2_34 : look (cell 110) (step (machine [13, 1, 110, -1] [0, 42, 0, 0] [])) = some (42, none000, 3) := by
  decide

theorem test_V2_35 : look (reg 2) (step (machine [14, -1, 2, -1] [0, 0, 0, 0] [])) = some (-1, none000, 3) := by decide

theorem test_V2_36 : look ctl (step (machine [14, 5, 6, -1] [0, 0, 0, 0] [])) = some (.faulted (.invalidRegister 6)) := by
  decide

theorem test_V2_38 : look (reg 2) (step (machine [15, 2, -1] [0, 0, -1, 0] [])) = some (0, zero, 2) := by decide

theorem test_V2_39 : look (reg 2) (stepWith eightBits (machine [15, 2, -1] [0, 0, 127, 0] [])) =
    some (-128, negative, 2) := by decide

theorem test_V2_40 : look State.pc (step (machine [16, 20] [0, 0, 0, 0] [])) = some 20 := by decide

/-- One step of a flag-conditioned jump `[o, 12, -1]` from each start flags of the table of 95_test_vectors.md. -/
def flagJump (o : Int) : List (Option Int) :=
  [zero, positive, negative, none000].map fun f =>
    look State.pc (step { machine [o, 12, -1] [0, 0, 0, 0] [] with flags := f })

theorem test_jz_table : flagJump 17 = [some 12, some 2, some 2, some 2] := by decide

theorem test_jn_table : flagJump 18 = [some 2, some 2, some 12, some 2] := by decide

theorem test_jnz_table : flagJump 19 = [some 2, some 12, some 12, some 2] := by decide

theorem test_V2_41 : look State.pc (step (machine [20, 0, 1, 40] [3, 3, 0, 0] [])) = some 40 := by decide

theorem test_V2_42 : look State.pc (step (machine [20, 0, 1, 40, -1] [3, 4, 0, 0] [])) = some 4 := by decide

theorem test_V2_43 : look State.pc (step (machine [21, 0, 1, 22] [-21, 7, 0, 0] [])) = some 22 := by decide

theorem test_V2_45 : look State.pc (step (machine [21, 0, 1, 22, -1] [9, 7, 0, 0] [])) = some 4 := by decide

theorem test_V2_46 : look State.pc (step (machine [22, 0, 1, 50] [5, 2, 0, 0] [])) = some 50 := by decide

theorem test_V2_47 : look State.pc (step (machine [22, 0, 1, 50, -1] [5, 5, 0, 0] [])) = some 4 := by decide

theorem test_V2_48 : look (reg 0) (step (machine [23, 10, -1] [0, 0, 0, 0] [])) = some (10, none000, 2) := by decide

theorem test_V2_49 : look (reg 0) (step (machine [24, 100, -1] [0, 0, 0, 0] [(100, 10)])) = some (10, none000, 2) := by
  decide

theorem test_V2_50 : look ctl (step (machine [24, -1, -1] [0, 0, 0, 0] [])) = some (.faulted (.outOfBounds (-1))) := by
  decide

theorem test_V2_51 : look (cell 100) (step (machine [25, 100, -1] [10, 0, 0, 0] [])) = some (10, none000, 2) := by decide

theorem test_V2_52 : look (cell 1) (step (machine [25, 1, -1] [77, 0, 0, 0] [])) = some (77, none000, 2) := by decide

/-! ### Fetch, halt and the edge of memory -/

theorem test_V2_53 : look (fun t => (t.ctl, t.pc, t.ir)) (step (machine [-1] [0, 0, 0, 0] [])) = some (.halted, 0, -1) := by
  decide

theorem test_V2_54 : look (fun t => (t.ctl, t.pc, t.ir)) (step (machine [26] [0, 0, 0, 0] [])) = some (.halted, 0, 26) := by
  decide

/-- The second step of V2.55. -/
theorem test_V2_55 : look (fun t => (t.ctl, t.pc)) (step { machine [16, 200] [0, 0, 0, 0] [] with pc := 200 }) =
    some (.faulted (.outOfBounds 200), 200) := by decide

/-- The second step of V2.56. -/
theorem test_V2_56 : look ctl (step { machine [16, 127] [0, 0, 0, 0] [] with pc := 127 }) =
    some (.faulted (.outOfBounds 128)) := by decide

/-! ### Other parameters (R2) -/

/-- With eight registers, id 7 names one and id 8 does not (R22, R24). -/
theorem test_eight_registers :
    let P : Params := { Config.hardware with ngpr := 8 }
    look (reg 7) (stepWith P (machine [14, 5, 7, -1] [0] [])) = some (5, none000, 3) ∧
    look ctl (stepWith P (machine [14, 5, 8, -1] [0] [])) = some (.faulted (.invalidRegister 8)) := by decide

/-- With three cells of memory, `addImmReg 5 0` reaches its last cell and FETCH of cell 3 faults (R51). -/
theorem test_three_cells :
    let P : Params := { Config.hardware with memSize := 3 }
    look (reg 0) (stepWith P (machine [3, 5, 0, -1] [-3] [])) = some (2, positive, 3) ∧
    look ctl (stepWith P ((machine [3, 5, 0, -1] [-3] []).setPc 3)) = some (.faulted (.outOfBounds 3)) := by decide

/-- With another opcode map, 115 is `incReg` and 15 halts (R2, R76). -/
theorem test_another_opcode_map :
    let P : Params := { Config.hardware with opcodeOf := fun m => 100 + Config.opcodeOf m }
    look (reg 2) (stepWith P (machine [115, 2, -1] [0, 0, 7] [])) = some (8, positive, 2) ∧
    look ctl (stepWith P (machine [15, 2, -1] [0, 0, 7] [])) = some .halted := by decide

/-! ### The datapath and the loader -/

/-- The example of R166, run as a microprogram: at address 8 with target 12, `pc` becomes 12 with Z = 1 and 10 with
Z = 0. -/
theorem test_microJz :
    let s := (machine [] [0, 0, 0, 0] [(8, 17), (9, 12)]).setPc 8
    (∃ t, runProgram Config.hardware microJz { s with flags := zero } = .ok t ∧ t.pc = 12) ∧
    ∃ t, runProgram Config.hardware microJz { s with flags := negative } = .ok t ∧ t.pc = 10 :=
  ⟨⟨_, rfl, rfl⟩, _, rfl, rfl⟩

theorem test_flags_word : negative.word = 6#3 ∧ zero.word = 1#3 ∧ positive.getBit 2 = true := by decide

theorem test_mulLoop : mulLoop .inf 4 (-2) = -8 ∧ mulLoop (.bits 8) 16 16 = 0 ∧ mulLoop .inf 9 1 = 9 := by decide

theorem test_load : (match load [.integer 23, .integer 10, .integer (-1)] State.reset with
    | .loaded s => [s.cell 0, s.cell 1, s.cell 2]
    | .refused _ _ => []) = [23, 10, -1] := by decide

theorem test_load_refuses : (match load [.integer 23, .notInteger] State.reset with
    | .loaded _ => none
    | .refused c _ => some c) = some (.loadFormat 1) := by decide

/-! ### Witnesses: states and operands that meet the hypotheses of each statement -/

/-- The reset state at this `pc`. -/
def resetAt (pc : Int) : State := State.reset.setPc pc

/-- Legal parameters at the lower ends of their ranges, with an opcode map of its own. -/
def smallParams : Params :=
  { memSize := 1, ngpr := 3, width := .bits 2, opcodeOf := fun m => 100 + Config.opcodeOf m, scratchFinal := .any }

theorem witness_DecodeOfEncodeIsIdentity : smallParams.Legal where
  memSize_pos := by decide
  ngpr_min := by decide
  width_legal := by show 2 ≤ 2; decide
  opcode_injective := by intro m n; cases m <;> cases n <;> decide
  opcode_not_sentinel := by intro m; cases m <;> decide

theorem witness_EncodeOfDecodeIsIdentity :
    decode Config.hardware [20, 3, 7, -9, 5] = .ok (.jeq 3 7 (-9), [5]) := rfl

theorem witness_HardwareParametersAreLegal : (0 : Int) ≤ 0 ∧ (0 : Int) ≤ 25 ∧ (25 : Int) ≤ 25 := by decide

/-- The first and the last cell of memory, and the addresses next to them. -/
theorem witness_FetchLoadsTheOpcode :
    inMemory Config.hardware (resetAt 0).pc ∧ inMemory Config.hardware (resetAt 127).pc ∧
    ¬ inMemory Config.hardware (resetAt (-1)).pc ∧ ¬ inMemory Config.hardware (resetAt 128).pc := by decide

/-- Two instructions at the edge of memory: `incReg 0` in the last two cells, and `addRegReg 0 0` whose second operand
cell is outside memory. -/
theorem witness_StepRunsTheDecodedInstruction :
    let s := machine [] [0, 0, 0, 0] [(126, 15)]
    (∃ rest, (s.setPc 126).ctl = .fetch ∧ inMemory Config.hardware (s.setPc 126).pc ∧
      decode Config.hardware [s.cell 126, cellOrZero Config.hardware s 127, cellOrZero Config.hardware s 128,
        cellOrZero Config.hardware s 129] = .ok (.incReg 0, rest)) ∧
    (∃ rest, (resetAt 126).ctl = .fetch ∧ inMemory Config.hardware (resetAt 126).pc ∧
      decode Config.hardware [(resetAt 126).cell 126, cellOrZero Config.hardware (resetAt 126) 127,
        cellOrZero Config.hardware (resetAt 126) 128, cellOrZero Config.hardware (resetAt 126) 129] =
        .ok (.addRegReg 0 0, rest)) :=
  ⟨⟨_, rfl, by decide, rfl⟩, ⟨_, rfl, by decide, rfl⟩⟩

/-- One instruction cell is all the memory there is, so the operand cells of `incReg` stand as 0. -/
theorem witness_StepAtAnyParametersRunsTheDecodedInstruction :
    let s := machine [115] [] []
    ∃ rest, s.ctl = .fetch ∧ inMemory smallParams s.pc ∧
      decode smallParams [s.cell 0, cellOrZero smallParams s 1, cellOrZero smallParams s 2,
        cellOrZero smallParams s 3] = .ok (.incReg 0, rest) :=
  ⟨_, rfl, by decide, rfl⟩

theorem witness_FetchOutsideMemoryAborts :
    (resetAt 128).ctl = .fetch ∧ ¬ inMemory Config.hardware (resetAt 128).pc ∧
    (resetAt (-1)).ctl = .fetch ∧ ¬ inMemory Config.hardware (resetAt (-1)).pc := by decide

/-- The opcode cell holds -1, 26, 0 and 25, the values on both sides of each bound. -/
theorem witness_HaltsExactlyOnUndecodableOpcodes :
    (machine [-1] [0, 0, 0, 0] []).cell 0 < 0 ∧ 25 < (machine [26] [0, 0, 0, 0] []).cell 0 ∧
    (machine [0] [0, 0, 0, 0] []).cell 0 = 0 ∧ (machine [25] [0, 0, 0, 0] []).cell 0 = 25 ∧
    (look ctl (step (machine [0] [0, 0, 0, 0] []))).isSome = true ∧
    (look ctl (step (machine [25] [0, 0, 0, 0] []))).isSome = true := by decide

theorem witness_TerminalStatesHaveNoStep :
    ({ State.reset with ctl := .halted } : State).EndedNormally ∧
    ({ State.reset with ctl := .faulted .noScratchCell } : State).AbortedBy .noScratchCell := by decide

/-- A run that halts at its first step. -/
theorem witness_RunsStopOnlyAtTerminalStates : ∃ t, start 1 (machine [-1] [0, 0, 0, 0] []) = .stopped t := ⟨_, rfl⟩

/-- The operand cells end at the last cell of memory, and the data address is the first or the last cell. Of the
statements over two operand cells this meets the hypotheses of AddSubRegRegCompute, AddSubMemRegCompute,
AddSubRegMemCompute, AddSubImmRegCompute, ImulToRegisterComputes, MoveRegRegAndImmRegCopy, MoveMemRegLoads and
MoveRegMemStores. -/
theorem witness_twoOperandCells : (resetAt 125).hasOperandCells 2 ∧ (resetAt (-1)).hasOperandCells 2 ∧
    inMemory Config.hardware 0 ∧ inMemory Config.hardware 127 := by decide

/-- The same for one operand cell: IncRegComputes, LdiAndReadLoadTheDefaultRegister, StoreWritesTheDefaultRegister,
JmpLoadsPc and FlagJumpsTestTheirFlag. -/
theorem witness_oneOperandCell : (resetAt 126).hasOperandCells 1 ∧ (resetAt (-1)).hasOperandCells 1 ∧
    inMemory Config.hardware 0 ∧ inMemory Config.hardware 127 := by decide

/-- The same for three operand cells: CompareJumpsCompareTheSecondRegister. -/
theorem witness_threeOperandCells : (resetAt 124).hasOperandCells 3 ∧ (resetAt (-1)).hasOperandCells 3 := by decide

/-- A state whose registers and cells hold the least and the greatest value of 8 bits. -/
def edgeOfWidth : State := machine [10, 1, 2, -1] [-128, 127, 1, 0] [(126, 127), (127, -128)]

theorem edgeOfWidth_inWidth : edgeOfWidth.InWidth eightBits :=
  ⟨Cells.read_of_forall (p := fun v => eightBits.width.holds v = true) (by decide) (by decide),
    Cells.read_of_forall (p := fun v => eightBits.width.holds v = true) (by decide) (by decide)⟩

/-- Both cases of `imulRegMem`'s multiplier among them: cell 125 holds 0 and is the scratch cell of a multiplier in cell
127. -/
theorem witness_ArithmeticWrapsAtEveryWidth :
    inMemory eightBits (edgeOfWidth.pc + 1) ∧ inMemory eightBits (edgeOfWidth.pc + 2) ∧ inMemory eightBits 127 ∧
    edgeOfWidth.InWidth eightBits ∧ eightBits.width.holds (-128) = true ∧ edgeOfWidth.cell 4 = 0 ∧
    edgeOfWidth.cell 127 ≠ 0 ∧ edgeOfWidth.ScratchCell eightBits 125 := by
  refine ⟨by decide, by decide, by decide, edgeOfWidth_inWidth, by decide, rfl, by decide, by decide, rfl, ?_⟩
  intro j h1 h2
  obtain rfl | rfl : j = 126 ∨ j = 127 := by
    have : j < 128 := h2
    omega
  · decide
  · decide

theorem witness_WrapIsTwosComplement :
    2 ≤ 2 ∧ (Width.bits 2).holds (-2) = true ∧ (Width.bits 2).holds 1 = true ∧ (Width.bits 2).holds 2 = false := by decide

/-- Both cases of the multiplier, with the scratch cell at the top of memory. -/
theorem witness_ImulRegMemComputes :
    let s := machine [10, 1, 126, -1] [0, 7, 0, 0] [(126, -3)]
    s.hasOperandCells 2 ∧ inMemory Config.hardware 126 ∧ s.cell 125 = 0 ∧ s.cell 126 ≠ 0 ∧ s.ScratchCell Config.hardware 127 :=
  ⟨by decide, by decide, rfl, by decide, by decide, rfl, fun j h1 h2 => absurd h2 (by
    show ¬ j < 128; omega)⟩

theorem witness_ImulRegMemWithAnyScratchValue :
    let s := machine [10, 1, 126, -1] [0, 7, 0, 0] [(126, -3)]
    s.hasOperandCells 2 ∧ inMemory Config.hardware 126 ∧ s.cell 126 ≠ 0 ∧ s.ScratchCell Config.hardware 127 :=
  ⟨by decide, by decide, by decide, by decide, rfl, fun j h1 h2 => absurd h2 (by show ¬ j < 128; omega)⟩

/-- A memory in which every cell holds 1. -/
def fullMemory : State := { resetAt 0 with mem := (List.range 128).map fun a => (a, 1) }

theorem fullMemory_cell : ∀ j, j < 128 → fullMemory.cell j = 1 := by
  set_option maxRecDepth 10000 in decide

theorem witness_NoScratchCellExactly :
    fullMemory.hasOperandCells 2 ∧ inMemory Config.hardware 126 ∧
    (∀ j, j < Config.hardware.memSize → fullMemory.cell j ≠ 0) ∧
    ∃ t, exec (.imulRegMem 1 126) fullMemory = .next t ∧ t.AbortedBy .noScratchCell := by
  refine ⟨by decide, by decide, fun j h => by rw [fullMemory_cell j h]; decide, _, rfl, ?_⟩
  set_option maxRecDepth 10000 in decide

theorem witness_MultiplyLoopIsWrappedProduct : (Width.bits 2).legal ∧ (Width.bits 2).holds (-2) = true :=
  ⟨by show 2 ≤ 2; decide, by decide⟩

theorem witness_StoreToTheNextOpcodeCellIsFetched :
    let s := (machine [] [7, 0, 0, 0] [(125, 25), (126, 127)]).setPc 125
    s.ctl = .fetch ∧ inMemory Config.hardware s.pc ∧ inMemory Config.hardware (s.pc + 2) ∧
    s.cell s.pc.toNat = 25 ∧ s.cell (s.pc + 1).toNat = s.pc + 2 := by decide

/-- Jumps taken to the addresses next to the ends of memory, without a condition, on a flag and on a comparison. -/
theorem witness_JumpOutsideMemoryFaultsAtTheNextFetch :
    let s := { resetAt 0 with flags := zero }
    (s.ConsumesOperands (.jmp 128) ∧ (Instr.jmp 128).takenTarget s = some 128) ∧
    (s.ConsumesOperands (.jz (-1)) ∧ (Instr.jz (-1)).takenTarget s = some (-1)) ∧
    (s.ConsumesOperands (.jeq 0 3 128) ∧ (Instr.jeq 0 3 128).takenTarget s = some 128) ∧
    ¬ inMemory Config.hardware 128 ∧ ¬ inMemory Config.hardware (-1) := by decide

/-- Instructions that complete: a jump, which is taken, and one with a destination register and flags. It meets the
hypotheses of PcLaw, FrameRule and FlagStatesAfterArithmetic. -/
theorem witness_completes :
    (∃ t, exec (.jmp 200) (resetAt 0) = .next t ∧ t.ctl = .fetch) ∧
    (∃ t, exec (.incReg 3) (resetAt 0) = .next t ∧ t.ctl = .fetch ∧ (Instr.incReg 3).affectsFlags = true) :=
  ⟨⟨_, rfl, rfl⟩, ⟨_, rfl, rfl, rfl⟩⟩

/-- `imulRegMem` completes with a scratch cell: FrameRule's other case. -/
theorem witness_FrameRule :
    let s := machine [10, 1, 126, -1] [0, 7, 0, 0] [(126, -3)]
    (∃ t, exec (.imulRegMem 1 126) s = .next t ∧ t.ctl = .fetch) ∧ ¬ s.ScratchCell Config.hardware 125 ∧ s.cell 126 ≠ 0 :=
  ⟨⟨_, rfl, rfl⟩, fun h => h.2.2 127 (by decide) (by decide) rfl, by decide⟩

theorem witness_OperandFaultsInCellOrder :
    operandFault Config.hardware (resetAt 127) (Instr.jmp 5).kindedOperands 1 = some (.outOfBounds 128) ∧
    operandFault Config.hardware (resetAt 126) (Instr.addRegReg 4 9).kindedOperands 1 = some (.invalidRegister 4) := by
  decide

theorem witness_DataAddressOutsideMemoryFaults :
    (OperandKind.mem, 128) ∈ (Instr.addMemReg 128 2).kindedOperands ∧
    (resetAt 125).ConsumesOperands (.addMemReg 128 2) ∧ ¬ inMemory Config.hardware 128 ∧
    (OperandKind.mem, -1) ∈ (Instr.store (-1)).kindedOperands ∧ (resetAt 126).ConsumesOperands (.store (-1)) ∧
    ¬ inMemory Config.hardware (-1) := by decide

theorem witness_OutOfBoundsOnlyForCellsOutsideMemory :
    (∃ t, exec (.read 128) (resetAt 0) = .next t ∧ t.AbortedBy (.outOfBounds 128)) ∧
    (∃ t, exec (.addRegReg 0 0) (resetAt 126) = .next t ∧ t.AbortedBy (.outOfBounds 128)) :=
  ⟨⟨_, rfl, rfl⟩, ⟨_, rfl, rfl⟩⟩

theorem witness_InvalidRegisterExactly :
    (∃ t, exec (.incReg 4) (resetAt 0) = .next t ∧ t.AbortedBy (.invalidRegister 4)) ∧
    (resetAt 125).hasOperandCells (Instr.addRegReg 0 (-1)).mnemonic.format.k ∧
    (OperandKind.reg, -1) ∈ (Instr.addRegReg 0 (-1)).kindedOperands ∧ ¬ ((0 : Int) ≤ -1 ∧ (-1 : Int) < 4) ∧
    ¬ ((0 : Int) ≤ 4 ∧ (4 : Int) < 4) :=
  ⟨⟨_, rfl, rfl⟩, by decide, by decide, by decide, by decide⟩

/-- A step that faults at an operand cell: FaultingStepChangesNoProgramState. It is a next state, as
RunningBlockNeverRaisesLoadFormat asks. -/
theorem witness_FaultingStepChangesNoProgramState :
    ∃ t, step (resetAt 126) = .next t ∧ t.AbortedBy (.outOfBounds 128) := ⟨_, rfl, rfl⟩

theorem witness_RunningBlockNeverRaisesLoadFormat : ∃ t, step (resetAt 0) = .next t := ⟨_, rfl⟩

/-- A state other than reset that meets the invariant, and steps. -/
theorem witness_EveryStepKeepsTheInvariant :
    let s := { machine [15, 2, -1] [0, 0, 7, 0] [(127, 4)] with flags := negative }
    s.Inv Config.hardware ∧ ∃ t, step s = .next t :=
  ⟨by decide, _, rfl⟩

theorem eightBits_legal : eightBits.Legal where
  memSize_pos := by decide
  ngpr_min := by decide
  width_legal := by show 2 ≤ 8; decide
  opcode_injective := by intro m n; cases m <;> cases n <;> decide
  opcode_not_sentinel := by intro m; cases m <;> decide

/-- The same at a width of 8 bits, on a state at the edge of the width. -/
theorem witness_EveryStepKeepsTheInvariantAndTheWidth :
    eightBits.Legal ∧ edgeOfWidth.Inv eightBits ∧ edgeOfWidth.InWidth eightBits ∧
    ∃ t, stepWith eightBits edgeOfWidth = .next t :=
  ⟨eightBits_legal, by decide, edgeOfWidth_inWidth, _, rfl⟩

/-- Two states that differ in `ir`, a bus and the free values to come. -/
theorem witness_HiddenStateIsUnobservable :
    let s := machine [15, 2, -1] [0, 0, 7, 0] []
    let s' := { s with ir := 9, hid := { s.hid with ext := 5 }, draws := 3 }
    s.ctl = .fetch ∧ s.Agree s' ∧ ∃ t, step s = .next t :=
  ⟨rfl, by decide, _, rfl⟩

theorem witness_CanonicalMemoriesThatReadAlikeAreEqual :
    Cells.wf [(0, 5), (127, -1)] ∧ Cells.wf (Cells.write (Cells.write [] 127 (-1)) 0 5) ∧
    Cells.read [(0, 5), (127, -1)] 127 = Cells.read (Cells.write (Cells.write [] 127 (-1)) 0 5) 127 := by decide

/-- The first and the last cell, and the addresses next to them: MemReadReadsOneCell and MemWriteWritesOneCell. -/
theorem witness_memoryBounds :
    ((0 : Int) ≤ 0 ∧ (0 : Int) < Config.hardware.memSize) ∧ ((0 : Int) ≤ 127 ∧ (127 : Int) < Config.hardware.memSize) ∧
    ¬ ((0 : Int) ≤ -1 ∧ (-1 : Int) < Config.hardware.memSize) ∧
    ¬ ((0 : Int) ≤ 128 ∧ (128 : Int) < Config.hardware.memSize) := by decide

/-- A program that fills a memory of two cells of 8 bits, and a value that 8 bits do not hold. -/
theorem witness_LoadPlacesLinesOrRefuses :
    let P : Params := { eightBits with memSize := 2 }
    (∀ v ∈ [(-128 : Int), 127], P.width.holds v = true) ∧ [(-128 : Int), 127].length ≤ P.memSize ∧
    P.width.holds 128 = false ∧ P.width.holds (-1) = true ∧ [(-128 : Int), 127].length = P.memSize := by decide

/-- The bounds of MemoryBusInterface are those of `witness_FetchLoadsTheOpcode`; the inequalities of the datapath
statements BusHoldsTheLastValuePut, RegisterTransfers, AluOperations and RegisterFileOrder are met. -/
theorem witness_datapath :
    Bus.intA ≠ Bus.ext ∧ WiredReg.gpr 1 ≠ WiredReg.gpr 0 ∧ WiredReg.pc ≠ WiredReg.ir ∧ AluSlot.slot0 ≠ AluSlot.slot1 ∧
    (0 : Fin 3) ≠ 2 ∧ inMemory Config.hardware 0 ∧ inMemory Config.hardware 127 ∧ ¬ inMemory Config.hardware (-1) ∧
    ¬ inMemory Config.hardware 128 ∧ (7 : Int) ≤ 7 ∧ (-1 : Int) < 0 := by decide

/-- The microprogram of `addRegReg` reaches its end, and raises at an operand cell outside memory. -/
theorem witness_MicroAddRegRegRefinesAddRegReg :
    (∃ t, runMicro Config.hardware microAddRegReg (machine [0, 2, 3, -1] [0, 0, 5, -7] []) = .ok t) ∧
    (∃ c t, runMicro Config.hardware microAddRegReg (resetAt 126) = .error (c, t)) :=
  ⟨⟨_, rfl⟩, ⟨_, _, rfl⟩⟩

theorem witness_MicroReadAndStoreRefine :
    (∃ t, runMicro Config.hardware microRead (machine [24, 100, -1] [0, 0, 0, 0] [(100, 10)]) = .ok t) ∧
    (∃ c t, runMicro Config.hardware microRead (machine [24, 128, -1] [0, 0, 0, 0] []) = .error (c, t)) ∧
    (∃ t, runMicro Config.hardware microStore (machine [25, 100, -1] [10, 0, 0, 0] []) = .ok t) ∧
    (∃ c t, runMicro Config.hardware microStore (machine [25, -1, -1] [10, 0, 0, 0] []) = .error (c, t)) :=
  ⟨⟨_, rfl⟩, ⟨_, _, rfl⟩, ⟨_, rfl⟩, ⟨_, _, rfl⟩⟩

end Sys2Proof.Tests
end

section
/-! PROOFS. The arithmetic of a result (00_scope.md R3, 10_state.md R30): what `wrap` answers at a bounded width, and that
the flags of any result are legal. -/

namespace Sys2Proof.Machine

/-- `2^w` is twice the half by which the range of R3 is bounded. -/
theorem two_pow_eq_two_mul_half {w : Nat} (hw : 2 ≤ w) : (2 ^ w : Int) = 2 * 2 ^ (w - 1) := by
  rw [← pow_succ', Nat.sub_add_cancel (by omega)]

theorem holds_bits_iff {w : Nat} {v : Int} :
    (Width.bits w).holds v = true ↔ -(2 ^ (w - 1) : Int) ≤ v ∧ v ≤ 2 ^ (w - 1) - 1 := by
  simp [Width.holds]

/-- What `wrap` answers lies in the range of R3. -/
theorem holds_wrap {width : Width} (hw : width.legal) (v : Int) : width.holds (wrap width v) = true := by
  cases width with
  | inf => rfl
  | bits w =>
    have hpos : (0 : Int) < 2 ^ w := by positivity
    have hlo := Int.emod_nonneg (v + 2 ^ (w - 1)) hpos.ne'
    have hhi := Int.emod_lt_of_pos (v + 2 ^ (w - 1)) hpos
    have hhalf := two_pow_eq_two_mul_half hw
    rw [holds_bits_iff, wrap]
    omega

/-- `wrap` changes a value by a multiple of `2^w` (R3). -/
theorem two_pow_dvd_wrap_sub (w : Nat) (v : Int) : (2 ^ w : Int) ∣ wrap (.bits w) v - v := by
  have h : wrap (.bits w) v - v = (v + 2 ^ (w - 1)) % 2 ^ w - (v + 2 ^ (w - 1)) := by
    rw [wrap]
    ring
  rw [h]
  exact Int.dvd_emod_sub_self

/-- A value of the width is left as it is (R3). -/
theorem wrap_of_holds {width : Width} (hw : width.legal) {v : Int} (hv : width.holds v = true) : wrap width v = v := by
  cases width with
  | inf => rfl
  | bits w =>
    obtain ⟨hlo, hhi⟩ := holds_bits_iff.1 hv
    have hhalf := two_pow_eq_two_mul_half hw
    rw [wrap, Int.emod_eq_of_lt (by omega) (by omega), add_sub_cancel_right]

theorem holds_zero {width : Width} (hw : width.legal) : width.holds 0 = true := by
  cases width with
  | inf => rfl
  | bits w =>
    have hpos : (0 : Int) < 2 ^ (w - 1) := by positivity
    rw [holds_bits_iff]
    omega

/-- A result sets the flags to one of the three states of R32. -/
theorem flagsOf_legal (r : Int) : (flagsOf r).legal := by
  rcases lt_trichotomy r 0 with h | rfl | h
  · simp [Flags.legal, flagsOf, h, h.ne]
  · simp [Flags.legal, flagsOf]
  · simp [Flags.legal, flagsOf, h.not_gt, h.ne']

/-- Settles O19, from what `wrap` answers at every legal width. -/
theorem wrapIsTwosComplement : Obligations.WrapIsTwosComplement := fun w v hw =>
  ⟨holds_wrap (width := .bits w) hw v, two_pow_dvd_wrap_sub w v, wrap_of_holds (width := .bits w) hw⟩

end Sys2Proof.Machine
end

section
/-! PROOFS. The parameters of this hardware (00_scope.md R2) and the numbering of the opcodes (30_encoding.md R71, R73). -/

namespace Sys2Proof

theorem canonical_nodup : Mnemonic.canonical.Nodup := by decide

theorem opcodeOf_injective {m n : Mnemonic} (h : Config.opcodeOf m = Config.opcodeOf n) : m = n :=
  (List.idxOf_inj (mnemonic_mem_canonical m)).1 (Int.ofNat_inj.1 h)

theorem opcodeOf_range (m : Mnemonic) : 0 ≤ Config.opcodeOf m ∧ Config.opcodeOf m ≤ 25 := by
  have h : Mnemonic.canonical.idxOf m < 26 := List.idxOf_lt_length_iff.2 (mnemonic_mem_canonical m)
  unfold Config.opcodeOf
  omega

/-- The mnemonic at a position of the canonical list has that position as its opcode (R71). -/
theorem opcodeOf_getElem (k : Nat) (hk : k < Mnemonic.canonical.length) :
    Config.opcodeOf Mnemonic.canonical[k] = k :=
  congrArg Nat.cast (canonical_nodup.idxOf_getElem k hk)

theorem hardware_legal : Config.hardware.Legal where
  memSize_pos := by decide
  ngpr_min := by decide
  width_legal := trivial
  opcode_injective _ _ h := opcodeOf_injective h
  opcode_not_sentinel m h := by
    have h0 : 0 ≤ Config.hardware.opcodeOf m := (opcodeOf_range m).1
    omega

/-- Every value from 0 to 25 is decodable (R73). -/
theorem mnemonicOf_hardware_of_range {v : Int} (h0 : 0 ≤ v) (h25 : v ≤ 25) :
    ∃ m, mnemonicOf Config.hardware v = some m ∧ Config.hardware.opcodeOf m = v := by
  have hk : v.toNat < Mnemonic.canonical.length := by
    have hlen : Mnemonic.canonical.length = 26 := rfl
    omega
  have hv : Config.hardware.opcodeOf Mnemonic.canonical[v.toNat] = v :=
    (opcodeOf_getElem v.toNat hk).trans (Int.toNat_of_nonneg h0)
  refine ⟨_, ?_, hv⟩
  rw [← mnemonicOf_opcodeOf hardware_legal.opcode_injective, hv]

/-- Settles O3: an opcode is a position in the canonical list, which holds every mnemonic once. -/
theorem hardwareParametersAreLegal : Obligations.HardwareParametersAreLegal :=
  ⟨hardware_legal, rfl, rfl, rfl, rfl, opcodeOf_range, fun _ => mnemonicOf_hardware_of_range, by decide⟩

end Sys2Proof
end

section
/-! PROOFS. The step of a block with any parameters (40_datapath_and_cycle.md R98, R99, R110), and that the block at the
parameters of this hardware is the one `exec`, `step` and `start` are. -/

namespace Sys2Proof.Machine

theorem execWith_hardware (i : Instr) (s : State) : execWith Config.hardware i s = exec i s := by cases i <;> rfl

theorem stepWith_hardware (s : State) : stepWith Config.hardware s = step s := by
  rw [stepWith, step, funext₂ execWith_hardware]

theorem startWith_hardware (fuel : Nat) (s : State) : startWith Config.hardware fuel s = start fuel s := by
  rw [startWith, start, funext stepWith_hardware]

/-- DECODE/EXECUTE runs the instruction its cells decode to (R99). -/
theorem decodeExecute_of_decode {P : Params} {dispatch : Instr → State → Result} {s : State} {i : Instr}
    {rest : List Int} (h : decode P (instructionCells P s) = .ok (i, rest)) :
    decodeExecute P dispatch s = dispatch i s := by
  rw [decodeExecute, h]

/-- From FETCH with `pc` in memory, a step runs DECODE/EXECUTE on the state FETCH leaves (R98, R110). -/
theorem cycle_of_fetch {P : Params} {dispatch : Instr → State → Result} {s : State} (hctl : s.ctl = .fetch)
    (hpc : inMemory P s.pc) : cycle P dispatch s = decodeExecute P dispatch s.fetched := by
  rw [cycle, hctl, fetchOpcode_ok hpc]

/-- Settles O8: FETCH leaves `s.fetched`, whose cells are those the statement decodes. -/
theorem stepAtAnyParametersRunsTheDecodedInstruction :
    Obligations.StepAtAnyParametersRunsTheDecodedInstruction := by
  refine ⟨fun P s i rest hctl hpc hdec => ?_, execWith_hardware, stepWith_hardware, startWith_hardware⟩
  refine ⟨s.fetched, fetchOpcode_ok hpc, ?_, rfl, rfl, rfl, rfl, rfl, rfl⟩
  rw [stepWith, cycle_of_fetch hctl hpc]
  exact decodeExecute_of_decode (s := s.fetched) hdec

end Sys2Proof.Machine
end

section
/-! PROOFS. What an instruction that completes leaves, for any parameters (R2), by the shape of its operands: the result in
its destination, the flags of the result (10_state.md R30), and the frame (40_datapath_and_cycle.md R108). -/

namespace Sys2Proof.Machine

theorem showsFlagsOf_of_flags_eq {t : State} {r : Int} (h : t.flags = flagsOf r) : t.ShowsFlagsOf r := by
  simp [State.ShowsFlagsOf, h]

theorem CompletesAs.mono {r : Result} {pc : Int} {Q R : State → Prop} (h : CompletesAs r pc Q)
    (hQR : ∀ t, Q t → R t) : CompletesAs r pc R := by
  obtain ⟨t, hr, hctl, hpc, hq⟩ := h
  exact ⟨t, hr, hctl, hpc, hQR t hq⟩

/-- A result went to a register: it stands there, the flags show it, and nothing else changed. -/
abbrev State.GotRegResult (s : State) (dest : Nat) (r : Int) (t : State) : Prop :=
  t.x dest = r ∧ t.ShowsFlagsOf r ∧ s.SameRegsBut dest t ∧ s.SameCells t

/-- A result went to a memory cell: it stands there, the flags show it, and nothing else changed. -/
abbrev State.GotCellResult (s : State) (dest : Nat) (r : Int) (t : State) : Prop :=
  t.cell dest = r ∧ t.ShowsFlagsOf r ∧ s.SameRegs t ∧ s.SameCellsBut [dest] t

theorem resultToReg_completes (P : Params) (dest : Nat) (r : Int) (s : State) :
    CompletesAs (resultToReg P dest r s) (s.pc + 1) (s.GotRegResult dest r) := by
  refine ⟨_, resultToReg_eq P dest r s, rfl, rfl, ?_, showsFlagsOf_of_flags_eq rfl, ?_, fun _ => rfl⟩
  · simp
  · intro i hi
    simp [hi]

theorem resultToMem_completes {P : Params} {dest : Int} (r : Int) {s : State} (h : inMemory P dest) :
    CompletesAs (resultToMem P dest r s) (s.pc + 1) (s.GotCellResult dest.toNat r) := by
  refine ⟨_, resultToMem_ok r h, rfl, rfl, ?_, showsFlagsOf_of_flags_eq rfl, fun _ => rfl, ?_⟩
  · simp
  · intro a ha
    simp_all

/-- The result of an addition (R120-R123). -/
def wrapAdd (width : Width) (x y : Int) : Int := wrap width (x + y)

/-- The result of a subtraction (R124-R127). -/
def wrapSub (width : Width) (x y : Int) : Int := wrap width (x - y)

section Shapes

variable {P : Params} {s : State} (f : Int → Int → Int) (a b : Reg P) {m : Int}

/-- Register and register, the first register the destination. -/
theorem regReg_completes (h1 : inMemory P (s.pc + 1)) (h2 : inMemory P (s.pc + 2)) :
    CompletesAs (formRR P a.id b.id s fun a b s => resultToReg P a (f (s.x a) (s.x b)) s) (s.pc + 3)
      (s.GotRegResult a (f (s.x a) (s.x b))) := by
  rw [formRR_go a b h1 h2, ← pc_add_two_one]
  exact resultToReg_completes P a _ (s.setPc (s.pc + 2))

/-- Memory and register, the register the destination. -/
theorem memReg_completes (h1 : inMemory P (s.pc + 1)) (h2 : inMemory P (s.pc + 2)) (hm : inMemory P m) :
    CompletesAs (formPlainReg P b.id s fun b s =>
        attempt P s (memRead P m s) fun v => resultToReg P b (f v (s.x b)) s) (s.pc + 3)
      (s.GotRegResult b (f (s.cell m.toNat) (s.x b))) := by
  rw [formPlainReg_go b h1 h2, memRead_ok hm, attempt_ok, ← pc_add_two_one]
  exact resultToReg_completes P b _ (s.setPc (s.pc + 2))

/-- Register and memory, the memory cell the destination. -/
theorem regMem_completes (h1 : inMemory P (s.pc + 1)) (h2 : inMemory P (s.pc + 2)) (hm : inMemory P m) :
    CompletesAs (formRM P a.id s fun a s =>
        attempt P s (memRead P m s) fun v => resultToMem P m (f (s.x a) v) s) (s.pc + 3)
      (s.GotCellResult m.toNat (f (s.x a) (s.cell m.toNat))) := by
  rw [formRM_go a h1 h2, memRead_ok hm, attempt_ok, ← pc_add_two_one]
  exact resultToMem_completes _ (s := s.setPc (s.pc + 2)) hm

/-- Immediate and register, the register the destination. -/
theorem immReg_completes (imm : Int) (h1 : inMemory P (s.pc + 1)) (h2 : inMemory P (s.pc + 2)) :
    CompletesAs (formPlainReg P b.id s fun b s => resultToReg P b (f imm (s.x b)) s) (s.pc + 3)
      (s.GotRegResult b (f imm (s.x b))) := by
  rw [formPlainReg_go b h1 h2, ← pc_add_two_one]
  exact resultToReg_completes P b _ (s.setPc (s.pc + 2))

end Shapes

/-- `incReg` (R160). -/
theorem incRegWith_completes {P : Params} {s : State} (a : Reg P) (h1 : inMemory P (s.pc + 1)) :
    CompletesAs (incRegWith P a.id s) (s.pc + 2) (s.GotRegResult a (wrap P.width (s.x a + 1))) := by
  rw [incRegWith, formR_go a h1, ← pc_add_one_one]
  exact resultToReg_completes P a _ (s.setPc (s.pc + 1))

end Sys2Proof.Machine
end

section
/-! PROOFS. `imulRegMem` for any parameters (42_imul.md R143, R144): a multiplier of 0, and a multiplier that takes the
scratch cell. -/

namespace Sys2Proof.Machine

/-- The scratch search finds the scratch cell (R144). -/
theorem scratch_ok {P : Params} {s : State} {sc : Nat} (h : s.ScratchCell P sc) : scratch P s = .ok sc := by
  obtain ⟨hlt, h0, hhigh⟩ := h
  rw [scratch]
  cases e : scratchBelow s.mem P.memSize with
  | none => exact absurd h0 (scratchBelow_none.1 e sc hlt)
  | some j =>
    obtain ⟨hj, hj0, hjhigh⟩ := scratchBelow_some e
    have hle : j ≤ sc := not_lt.1 fun hlt' => hhigh j hlt' hj hj0
    have hge : sc ≤ j := not_lt.1 fun hlt' => hjhigh sc hlt' hlt h0
    rw [le_antisymm hle hge]

section ImulRegMem

variable {P : Params} {s : State} (a : Reg P) {m : Int}

/-- A multiplier of 0 gives 0 and takes no scratch cell (R143). -/
theorem imulRegMemWith_completes_of_zero (h1 : inMemory P (s.pc + 1)) (h2 : inMemory P (s.pc + 2))
    (hm : inMemory P m) (h0 : s.cell m.toNat = 0) :
    CompletesAs (imulRegMemWith P a.id m s) (s.pc + 3) (s.GotCellResult m.toNat 0) := by
  rw [imulRegMemWith, formRM_go a h1 h2, memRead_ok hm, attempt_ok, State.setPc_cell, if_pos h0, ← pc_add_two_one]
  exact resultToMem_completes 0 (s := s.setPc (s.pc + 2)) hm

/-- With another multiplier the destination gets the product, and the scratch cell what `scratchFinalValue` says
(R143, R144). -/
theorem imulRegMemWith_completes (h1 : inMemory P (s.pc + 1)) (h2 : inMemory P (s.pc + 2)) (hm : inMemory P m)
    (hne : s.cell m.toNat ≠ 0) {sc : Nat} (hsc : s.ScratchCell P sc) :
    CompletesAs (imulRegMemWith P a.id m s) (s.pc + 3) fun t =>
      t.cell m.toNat = mul P.width (s.x a) (s.cell m.toNat) ∧
      t.cell sc = scratchFinalValue P s (mul P.width (s.x a) (s.cell m.toNat)) ∧ sc ≠ m.toNat ∧
      t.ShowsFlagsOf (mul P.width (s.x a) (s.cell m.toNat)) ∧ s.SameRegs t ∧ s.SameCellsBut [m.toNat, sc] t := by
  have hsc0 : s.cell sc = 0 := hsc.2.1
  have hscm : sc ≠ m.toNat := fun h => hne (h ▸ hsc0)
  have hscMem : inMemory P (sc : Int) := ⟨Int.natCast_nonneg _, Int.ofNat_lt.2 hsc.1⟩
  have hfind : scratch P (s.setPc (s.pc + 2)) = .ok sc := scratch_ok hsc
  rw [imulRegMemWith, formRM_go a h1 h2, memRead_ok hm, attempt_ok, State.setPc_cell, if_neg hne, hfind, attempt_ok,
    memWrite_ok hscMem, attempt_ok, ← pc_add_two_one]
  refine (resultToMem_completes _ hm).mono ?_
  rintro t ⟨hdest, hflags, hregs, hcells⟩
  refine ⟨hdest, ?_, hscm, hflags, hregs, ?_⟩
  · rw [hcells sc (by simpa using hscm)]
    simp [scratchFinalValue, draw]
  · intro c hc
    simp only [List.mem_cons, List.not_mem_nil, or_false, not_or] at hc
    obtain ⟨hcm, hcsc⟩ := hc
    rw [hcells c (by simpa using hcm)]
    simp [hcsc]

end ImulRegMem

/-- A result of which the destination and the flags are asked, and not the frame. -/
theorem givesWrapped_of_gotRegResult {P : Params} {i : Instr} {s : State} {pc r : Int} {dest : Nat}
    (h : CompletesAs (execWith P i s) pc (s.GotRegResult dest (wrap P.width r))) :
    GivesWrapped P i s pc (·.x dest) r :=
  CompletesAs.mono h fun _ ⟨hdest, hflags, _⟩ => ⟨hdest, hflags⟩

theorem givesWrapped_of_gotCellResult {P : Params} {i : Instr} {s : State} {pc r : Int} {dest : Nat}
    (h : CompletesAs (execWith P i s) pc (s.GotCellResult dest (wrap P.width r))) :
    GivesWrapped P i s pc (·.cell dest) r :=
  CompletesAs.mono h fun _ ⟨hdest, hflags, _⟩ => ⟨hdest, hflags⟩

/-- Settles O18: each instruction has one of the shapes above, at the wrapped sum, difference or product. -/
theorem arithmeticWrapsAtEveryWidth : Obligations.ArithmeticWrapsAtEveryWidth := by
  intro P a b m imm s h1 h2 hm _ _
  refine ⟨givesWrapped_of_gotRegResult (regReg_completes (wrapAdd P.width) a b h1 h2),
    givesWrapped_of_gotRegResult (regReg_completes (wrapSub P.width) a b h1 h2),
    givesWrapped_of_gotRegResult (memReg_completes (wrapAdd P.width) b h1 h2 hm),
    givesWrapped_of_gotRegResult (memReg_completes (wrapSub P.width) b h1 h2 hm),
    givesWrapped_of_gotCellResult (regMem_completes (wrapAdd P.width) a h1 h2 hm),
    givesWrapped_of_gotCellResult (regMem_completes (wrapSub P.width) a h1 h2 hm),
    givesWrapped_of_gotRegResult (immReg_completes (wrapAdd P.width) b imm h1 h2),
    givesWrapped_of_gotRegResult (immReg_completes (wrapSub P.width) b imm h1 h2),
    givesWrapped_of_gotRegResult (regReg_completes (mul P.width) a b h1 h2),
    givesWrapped_of_gotRegResult (memReg_completes (mul P.width) b h1 h2 hm),
    givesWrapped_of_gotRegResult (incRegWith_completes a h1),
    imulRegMemWith_completes_of_zero a h1 h2 hm, fun hne sc hsc => ?_⟩
  refine (imulRegMemWith_completes a h1 h2 hm hne hsc).mono ?_
  rintro t ⟨hdest, hscratch, hrest⟩
  exact ⟨hdest, fun hfinal => by rw [hscratch, scratchFinalValue, hfinal]; rfl, hrest⟩

/-- Settles O23: of what `imulRegMem` leaves at any parameters, only the scratch cell's value depends on
`IMUL_SCRATCH_FINAL`. -/
theorem imulRegMemWithAnyScratchValue : Obligations.ImulRegMemWithAnyScratchValue := by
  intro a m s sc ⟨h1, h2⟩ hm hne hsc
  refine (imulRegMemWith_completes (P := { Config.hardware with scratchFinal := .any }) a h1 h2 hm hne hsc).mono ?_
  rintro t ⟨hdest, -, -, hrest⟩
  exact ⟨hdest, hrest⟩

end Sys2Proof.Machine
end

section
/-! PROOFS. The operands of a decoded instruction stand in the cells it was decoded from (30_encoding.md R70, R74, R75). -/

namespace Sys2Proof

theorem oneOperand_ok {m : Mnemonic} {f : Int → Instr} {cells rest : List Int} {i : Instr}
    (h : oneOperand m f cells = .ok (i, rest)) : ∃ c1, i = f c1 ∧ cells = c1 :: rest := by
  match cells with
  | [] => cases h
  | c1 :: _ => cases h; exact ⟨c1, rfl, rfl⟩

theorem twoOperands_ok {m : Mnemonic} {f : Int → Int → Instr} {cells rest : List Int} {i : Instr}
    (h : twoOperands m f cells = .ok (i, rest)) : ∃ c1 c2, i = f c1 c2 ∧ cells = c1 :: c2 :: rest := by
  match cells with
  | [] | [_] => cases h
  | c1 :: c2 :: _ => cases h; exact ⟨c1, c2, rfl, rfl⟩

theorem threeOperands_ok {m : Mnemonic} {f : Int → Int → Int → Instr} {cells rest : List Int} {i : Instr}
    (h : threeOperands m f cells = .ok (i, rest)) : ∃ c1 c2 c3, i = f c1 c2 c3 ∧ cells = c1 :: c2 :: c3 :: rest := by
  match cells with
  | [] | [_] | [_, _] => cases h
  | c1 :: c2 :: c3 :: _ => cases h; exact ⟨c1, c2, c3, rfl, rfl⟩

/-- The cells a row's operands are read from are those operands, in order (R74). -/
theorem decodeOperands_ok {m : Mnemonic} {cells rest : List Int} {i : Instr}
    (h : decodeOperands m cells = .ok (i, rest)) : i.mnemonic = m ∧ cells = i.operands ++ rest := by
  cases m with
  | incReg | jmp | jz | jn | jnz | ldi | read | store =>
    obtain ⟨c1, rfl, rfl⟩ := oneOperand_ok h
    exact ⟨rfl, rfl⟩
  | jeq | jgt | jlw =>
    obtain ⟨c1, c2, c3, rfl, rfl⟩ := threeOperands_ok h
    exact ⟨rfl, rfl⟩
  | _ =>
    obtain ⟨c1, c2, rfl, rfl⟩ := twoOperands_ok h
    exact ⟨rfl, rfl⟩

/-- Cells that decode to an instruction are its opcode cell and its operands, with the cells after it (R70, R75). -/
theorem decode_ok {P : Params} {cells rest : List Int} {i : Instr} (h : decode P cells = .ok (i, rest)) :
    cells = encode P i ++ rest := by
  cases cells with
  | nil => cases h
  | cons opcode tail =>
    cases e : mnemonicOf P opcode with
    | none => simp [decode, e] at h
    | some m =>
      have hops : decodeOperands m tail = .ok (i, rest) := by simpa only [decode, e] using h
      obtain ⟨rfl, rfl⟩ := decodeOperands_ok hops
      rw [encode, mnemonicOf_some e, List.cons_append]

end Sys2Proof
end

section
/-! PROOFS. What every next state a meaning answers has in common: if the state an error condition leaves has a property,
and every state the meaning goes on to leads to states that have it, so does every state it answers. One lemma for each
operation that may raise (40_datapath_and_cycle.md R101, R106) and for each operand format (30_encoding.md R74). -/

namespace Sys2Proof.Machine

/-- Every next state this result answers has the property. -/
def EveryNext (Q : State → Prop) (r : Result) : Prop := ∀ t, r = .next t → Q t

theorem everyNext_next {Q : State → Prop} {t : State} (h : Q t) : EveryNext Q (.next t) := by
  rintro _ ⟨⟩
  exact h

theorem everyNext_fault {Q : State → Prop} {f : Fault} : EveryNext Q (.fault f) := fun _ h => nomatch h

section Operations

variable {P : Params} {s : State} {Q : State → Prop} (hraise : ∀ c, Q (s.raised P c))
include hraise

theorem attempt_everyNext {α : Type} {op : Except Condition α} {go : α → Result}
    (hgo : ∀ v, op = .ok v → EveryNext Q (go v)) : EveryNext Q (attempt P s op go) := by
  cases op with
  | ok v => exact hgo v rfl
  | error c => exact everyNext_next (hraise c)

theorem memRead_everyNext {a : Int} {go : Int → Result} (hgo : EveryNext Q (go (s.cell a.toNat))) :
    EveryNext Q (attempt P s (memRead P a s) go) := by
  rcases memRead_cases P a s with ⟨_, e⟩ | ⟨_, e⟩ <;> rw [e]
  · exact hgo
  · exact everyNext_next (hraise _)

theorem memWrite_everyNext {a v : Int} {go : State → Result}
    (hgo : a.toNat < P.memSize → EveryNext Q (go (s.setCell a.toNat v))) :
    EveryNext Q (attempt P s (memWrite P a v s) go) := by
  rcases memWrite_cases P a v s with ⟨⟨h0, hlt⟩, e⟩ | ⟨_, e⟩ <;> rw [e]
  · exact hgo ((Int.toNat_lt h0).2 hlt)
  · exact everyNext_next (hraise _)

theorem fetchOperand_everyNext {go : State → Result} (hgo : ∀ pc, EveryNext Q (go (s.setPc pc))) :
    EveryNext Q (fetchOperand P s go) :=
  attempt_everyNext (s := s.setPc (s.pc + 1)) hraise fun _ _ => hgo _

theorem fetchRegister_everyNext {id : Int} {go : Reg P → State → Result}
    (hgo : ∀ r pc, EveryNext Q (go r (s.setPc pc))) : EveryNext Q (fetchRegister P id s go) :=
  fetchOperand_everyNext hraise fun pc => attempt_everyNext (s := s.setPc pc) hraise fun r _ => hgo r pc

theorem formRR_everyNext {regA regB : Int} {go : Reg P → Reg P → State → Result}
    (hgo : ∀ a b pc, EveryNext Q (go a b (s.setPc pc))) : EveryNext Q (formRR P regA regB s go) :=
  fetchRegister_everyNext hraise fun a pc => fetchRegister_everyNext (s := s.setPc pc) hraise fun b pc => hgo a b pc

theorem formPlainReg_everyNext {reg : Int} {go : Reg P → State → Result}
    (hgo : ∀ b pc, EveryNext Q (go b (s.setPc pc))) : EveryNext Q (formPlainReg P reg s go) :=
  fetchOperand_everyNext hraise fun pc => fetchRegister_everyNext (s := s.setPc pc) hraise hgo

theorem formRM_everyNext {reg : Int} {go : Reg P → State → Result}
    (hgo : ∀ a pc, EveryNext Q (go a (s.setPc pc))) : EveryNext Q (formRM P reg s go) :=
  fetchRegister_everyNext hraise fun a pc => fetchOperand_everyNext (s := s.setPc pc) hraise fun pc => hgo a pc

theorem formR_everyNext {reg : Int} {go : Reg P → State → Result}
    (hgo : ∀ a pc, EveryNext Q (go a (s.setPc pc))) : EveryNext Q (formR P reg s go) :=
  fetchRegister_everyNext hraise hgo

theorem formPlain_everyNext {go : State → Result} (hgo : ∀ pc, EveryNext Q (go (s.setPc pc))) :
    EveryNext Q (formPlain P s go) :=
  fetchOperand_everyNext hraise hgo

theorem formRRT_everyNext {regA regB : Int} {go : Reg P → Reg P → State → Result}
    (hgo : ∀ a b pc, EveryNext Q (go a b (s.setPc pc))) : EveryNext Q (formRRT P regA regB s go) :=
  formRR_everyNext hraise fun a b pc => fetchOperand_everyNext (s := s.setPc pc) hraise fun pc => hgo a b pc

end Operations

end Sys2Proof.Machine
end

section
/-! PROOFS. The invariant and the width are kept (10_state.md R22, R32, 20_memory.md R50, 00_scope.md R3): by every update
of the state, then by every instruction, then by the step. -/

namespace Sys2Proof.Machine

/-- The invariant, with every register and every cell a value of the width. -/
structure State.Sound (P : Params) (s : State) : Prop where
  inv : s.Inv P
  inWidth : s.InWidth P

/-- What is left in the scratch cell is a value of the width: the product is one, and a free value is wrapped. -/
theorem holds_scratchFinalValue {P : Params} (hP : P.Legal) (s : State) {product : Int}
    (h : P.width.holds product = true) : P.width.holds (scratchFinalValue P s product) = true := by
  unfold scratchFinalValue
  split
  · exact h
  · exact holds_wrap hP.width_legal _

/-- A write within the first `n` indices keeps the canonical form and the bound. -/
theorem Cells.write_below {m : Cells} {n a : Nat} (h : m.below n) (ha : a < n) (v : Int) :
    (Cells.write m a v).below n := by
  intro c hc
  rcases Cells.mem_write hc with rfl | hc
  · exact ha
  · exact h c hc

namespace State.Sound

variable {P : Params} {s t : State}

/-- Only memory, registers and flags are spoken of. -/
theorem of_same (h : s.Sound P) (hst : s.SameProgramState t) : t.Sound P := by
  obtain ⟨hmem, hgpr, hflags⟩ := hst
  obtain ⟨hinv, hwidth⟩ := h
  constructor
  · simpa only [State.Inv, hmem, hgpr, hflags] using hinv
  · simpa only [State.InWidth, State.x, State.cell, hmem, hgpr] using hwidth

theorem raised (h : s.Sound P) (c : Condition) : (s.raised P c).Sound P := h.of_same ⟨rfl, rfl, rfl⟩

theorem setPc (h : s.Sound P) (pc : Int) : (s.setPc pc).Sound P := h.of_same ⟨rfl, rfl, rfl⟩

theorem completed (h : s.Sound P) (pc : Int) : (s.completed P pc).Sound P := h.of_same ⟨rfl, rfl, rfl⟩

theorem setX (h : s.Sound P) {r : Nat} (hr : r < P.ngpr) {v : Int} (hv : P.width.holds v = true) :
    (s.setX r v).Sound P := by
  obtain ⟨⟨hmem, hmemBelow, hgpr, hgprBelow, hflags⟩, hregs, hcells⟩ := h
  refine ⟨⟨hmem, hmemBelow, Cells.write_wf hgpr r v, Cells.write_below hgprBelow hr v, hflags⟩, fun i => ?_, hcells⟩
  rw [State.setX_x]
  split
  · exact hv
  · exact hregs i

theorem setCell (h : s.Sound P) {a : Nat} (ha : a < P.memSize) {v : Int} (hv : P.width.holds v = true) :
    (s.setCell a v).Sound P := by
  obtain ⟨⟨hmem, hmemBelow, hgpr, hgprBelow, hflags⟩, hregs, hcells⟩ := h
  refine ⟨⟨Cells.write_wf hmem a v, Cells.write_below hmemBelow ha v, hgpr, hgprBelow, hflags⟩, hregs, fun b => ?_⟩
  rw [State.setCell_cell]
  split
  · exact hv
  · exact hcells b

theorem setFlags (h : s.Sound P) (r : Int) : (s.setFlags r).Sound P := by
  obtain ⟨⟨hmem, hmemBelow, hgpr, hgprBelow, _⟩, hwidth⟩ := h
  exact ⟨⟨hmem, hmemBelow, hgpr, hgprBelow, flagsOf_legal r⟩, hwidth⟩

theorem holds_x (h : s.Sound P) (i : Nat) : P.width.holds (s.x i) = true := h.inWidth.1 i

theorem holds_cell (h : s.Sound P) (a : Nat) : P.width.holds (s.cell a) = true := h.inWidth.2 a

/-! ### The ways an instruction ends -/

theorem finish (h : s.Sound P) : EveryNext (Sound P) (finish P s) := everyNext_next (h.completed _)

theorem finish_setX (h : s.Sound P) {r : Nat} (hr : r < P.ngpr) {v : Int} (hv : P.width.holds v = true) :
    EveryNext (Sound P) (Machine.finish P (s.setX r v)) :=
  (h.setX hr hv).finish

theorem branch (h : s.Sound P) (taken : Bool) (target : Int) : EveryNext (Sound P) (branch P taken target s) := by
  rw [branch_eq]
  exact everyNext_next (h.completed _)

theorem resultToReg (h : s.Sound P) {dest : Nat} (hd : dest < P.ngpr) {r : Int} (hr : P.width.holds r = true) :
    EveryNext (Sound P) (resultToReg P dest r s) :=
  ((h.setX hd hr).setFlags r).finish

theorem resultToMem (h : s.Sound P) {dest r : Int} (hr : P.width.holds r = true) :
    EveryNext (Sound P) (resultToMem P dest r s) :=
  memWrite_everyNext h.raised fun ha => ((h.setCell ha hr).setFlags r).finish

theorem storeCell (h : s.Sound P) {a v : Int} (hv : P.width.holds v = true) :
    EveryNext (Sound P) (attempt P s (memWrite P a v s) fun s => Machine.finish P s) :=
  memWrite_everyNext h.raised fun ha => (h.setCell ha hv).finish

/-! ### The instructions -/

theorem imulRegMem (h : s.Sound P) (hP : P.Legal) (reg addr : Int) :
    EveryNext (Sound P) (imulRegMemWith P reg addr s) := by
  refine formRM_everyNext h.raised fun a pc => memRead_everyNext (h.setPc pc).raised ?_
  split
  · exact (h.setPc pc).resultToMem (holds_zero hP.width_legal)
  · refine attempt_everyNext (h.setPc pc).raised fun sc _ => ?_
    refine memWrite_everyNext (h.setPc pc).raised fun hsc => ?_
    have hprod := holds_wrap hP.width_legal ((s.setPc pc).x a * (s.setPc pc).cell addr.toNat)
    exact ((h.setPc pc).setCell hsc (holds_scratchFinalValue hP _ hprod)).resultToMem hprod

/-- Every instruction whose operands are values of the width. -/
theorem execWith (h : s.Sound P) (hP : P.Legal) {i : Instr} (hi : ∀ v ∈ i.operands, P.width.holds v = true) :
    EveryNext (Sound P) (execWith P i s) := by
  have hwrap := holds_wrap hP.width_legal
  have h0 : defaultReg < P.ngpr := Nat.lt_of_lt_of_le (by decide) hP.ngpr_min
  cases i with
  | addRegReg | subRegReg | imulRegReg =>
    exact formRR_everyNext h.raised fun a b pc => (h.setPc pc).resultToReg a.isLt (hwrap _)
  | addMemReg | subMemReg | imulMemReg =>
    exact formPlainReg_everyNext h.raised fun b pc =>
      memRead_everyNext (h.setPc pc).raised ((h.setPc pc).resultToReg b.isLt (hwrap _))
  | addRegMem | subRegMem =>
    exact formRM_everyNext h.raised fun a pc =>
      memRead_everyNext (h.setPc pc).raised ((h.setPc pc).resultToMem (hwrap _))
  | imulRegMem reg addr => exact h.imulRegMem hP reg addr
  | addImmReg | subImmReg =>
    exact formPlainReg_everyNext h.raised fun b pc => (h.setPc pc).resultToReg b.isLt (hwrap _)
  | incReg => exact formR_everyNext h.raised fun a pc => (h.setPc pc).resultToReg a.isLt (hwrap _)
  | moveRegReg =>
    exact formRR_everyNext h.raised fun a b pc => (h.setPc pc).finish_setX b.isLt (h.holds_x a)
  | moveMemReg =>
    exact formPlainReg_everyNext h.raised fun b pc =>
      memRead_everyNext (h.setPc pc).raised ((h.setPc pc).finish_setX b.isLt (h.holds_cell _))
  | moveRegMem => exact formRM_everyNext h.raised fun a pc => (h.setPc pc).storeCell (h.holds_x a)
  | moveImmReg imm =>
    exact formPlainReg_everyNext h.raised fun b pc =>
      (h.setPc pc).finish_setX b.isLt (hi imm (by simp [Instr.operands]))
  | jmp => exact formPlain_everyNext h.raised fun pc => everyNext_next ((h.setPc pc).completed _)
  | jz | jn | jnz => exact formPlain_everyNext h.raised fun pc => (h.setPc pc).branch _ _
  | jeq | jgt | jlw => exact formRRT_everyNext h.raised fun a b pc => (h.setPc pc).branch _ _
  | ldi imm =>
    rw [Machine.execWith, ldiWith]
    exact formPlain_everyNext h.raised fun pc =>
      (h.setPc pc).finish_setX h0 (hi imm (by simp [Instr.operands]))
  | read =>
    rw [Machine.execWith, readWith]
    exact formPlain_everyNext h.raised fun pc =>
      memRead_everyNext (h.setPc pc).raised ((h.setPc pc).finish_setX h0 (h.holds_cell _))
  | store =>
    rw [Machine.execWith, storeWith]
    exact formPlain_everyNext h.raised fun pc => (h.setPc pc).storeCell (h.holds_x _)

/-! ### The step -/

theorem holds_cellOrZero (h : s.Sound P) (hP : P.Legal) (a : Int) : P.width.holds (cellOrZero P s a) = true := by
  unfold cellOrZero
  split
  · exact h.holds_cell _
  · exact holds_zero hP.width_legal

/-- The operands of the decoded instruction are cells of memory, or 0 outside it; the opcode cell is not among them, so
nothing is asked of `ir`. -/
theorem holds_operands (h : s.Sound P) (hP : P.Legal) {i : Instr} {rest : List Int}
    (hdec : decode P (instructionCells P s) = .ok (i, rest)) : ∀ v ∈ i.operands, P.width.holds v = true := by
  have htail : [cellOrZero P s (s.pc + 1), cellOrZero P s (s.pc + 2), cellOrZero P s (s.pc + 3)] = i.operands ++ rest :=
    (List.cons.inj (decode_ok hdec)).2
  intro v hv
  have hmem : v ∈ i.operands ++ rest := List.mem_append_left rest hv
  rw [← htail] at hmem
  simp only [List.mem_cons, List.not_mem_nil, or_false] at hmem
  rcases hmem with rfl | rfl | rfl <;> exact h.holds_cellOrZero hP _

theorem decodeExecute (h : s.Sound P) (hP : P.Legal) :
    EveryNext (Sound P) (decodeExecute P (Machine.execWith P) s) := by
  rcases decodeExecute_cases P (Machine.execWith P) s with ⟨i, rest, hdec, e⟩ | ⟨-, e⟩ <;> rw [e]
  · exact h.execWith hP (h.holds_operands hP hdec)
  · exact everyNext_next (h.of_same ⟨rfl, rfl, rfl⟩)

theorem stepWith (h : s.Sound P) (hP : P.Legal) : EveryNext (Sound P) (stepWith P s) := by
  rw [Machine.stepWith]
  rcases cycle_cases P (Machine.execWith P) s with ⟨-, -, e⟩ | ⟨-, -, e⟩ | ⟨-, e⟩ | ⟨-, e⟩ | ⟨c, -, e⟩ <;> rw [e]
  · exact (h.of_same (t := s.fetched) ⟨rfl, rfl, rfl⟩).decodeExecute hP
  · exact everyNext_next (h.of_same ⟨rfl, rfl, rfl⟩)
  · exact h.decodeExecute hP
  · exact everyNext_fault
  · exact everyNext_fault

end State.Sound

/-- Settles O46: `State.Sound` is kept by every update of the state, by every instruction and so by the step. -/
theorem everyStepKeepsTheInvariantAndTheWidth : Obligations.EveryStepKeepsTheInvariantAndTheWidth := by
  intro P s t hP hinv hwidth hstep
  obtain ⟨hinv', hwidth'⟩ := State.Sound.stepWith ⟨hinv, hwidth⟩ hP t hstep
  exact ⟨hinv', hwidth'⟩

end Sys2Proof.Machine
end

section
/-! PROOFS. What a program observes does not depend on `ir`, the hidden state or the free values (10_state.md R28, R37,
R40): two states that agree are one state with two values of the part no instruction reads, and every operation of the
meanings goes on, or ends, alike from both. -/

namespace Sys2Proof.Machine

/-- The part of the state that no instruction reads: `ir` (R28), the hidden state (R37) and the counter of the free
values (notes/assumptions/2.md). -/
structure Unseen where
  ir : Int
  hid : Hidden
  draws : Nat

/-- The state with this unseen part. Every other field is kept, so reading a register, a cell, a flag or `pc` of it is by
definition reading it of `s`. -/
def State.withUnseen (s : State) (u : Unseen) : State := { s with ir := u.ir, hid := u.hid, draws := u.draws }

theorem State.Agree.eq_withUnseen {s s' : State} (h : s.Agree s') :
    s' = s.withUnseen ⟨s'.ir, s'.hid, s'.draws⟩ := by
  obtain ⟨hmem, hgpr, hflags, hpc, hctl⟩ := h
  rw [State.withUnseen, hmem, hgpr, hflags, hpc, hctl]

/-- A program cannot tell two next states apart; after a fault `pc` is unspecified (R195) and is not compared. -/
abbrev State.LooksLike (t t' : State) : Prop :=
  t.mem = t'.mem ∧ t.gpr = t'.gpr ∧ t.flags = t'.flags ∧ t.ctl = t'.ctl ∧ ((∃ c, t.AbortedBy c) ∨ t.pc = t'.pc)

/-- Two meanings answer next states that a program cannot tell apart. -/
def Alike (r r' : Result) : Prop := ∃ t t', r = .next t ∧ r' = .next t' ∧ t.LooksLike t'

/-- A meaning answers alike whatever the unseen part of the state is. -/
def IgnoresUnseen (f : State → Result) : Prop := ∀ s u, Alike (f s) (f (s.withUnseen u))

section Operations

variable {P : Params}

theorem raised_alike (c : Condition) (s : State) (u : Unseen) :
    Alike (.next (s.raised P c)) (.next ((s.withUnseen u).raised P c)) :=
  ⟨_, _, rfl, rfl, rfl, rfl, rfl, rfl, .inl ⟨c, rfl⟩⟩

theorem stopped_alike (s : State) (u : Unseen) :
    Alike (.next (s.stopped P)) (.next ((s.withUnseen u).stopped P)) :=
  ⟨_, _, rfl, rfl, rfl, rfl, rfl, rfl, .inr rfl⟩

theorem completed_alike (pc : Int) (s : State) (u : Unseen) :
    Alike (.next (s.completed P pc)) (.next ((s.withUnseen u).completed P pc)) :=
  ⟨_, _, rfl, rfl, rfl, rfl, rfl, rfl, .inr rfl⟩

theorem fetchFaulted_alike (s : State) (u : Unseen) :
    Alike (.next s.fetchFaulted) (.next (s.withUnseen u).fetchFaulted) :=
  ⟨_, _, rfl, rfl, rfl, rfl, rfl, rfl, .inr rfl⟩

/-- A value that does not depend on the unseen part can be taken as fixed. -/
theorem ignoresUnseen_of_value {α : Type} {v : State → α} (f : α → State → Result)
    (hv : ∀ s u, v (s.withUnseen u) = v s) (hf : ∀ x, IgnoresUnseen (f x)) : IgnoresUnseen fun s => f (v s) s := by
  intro s u
  dsimp only
  rw [hv s u]
  exact hf (v s) s u

theorem attempt_ignoresUnseen {α : Type} {op : State → Except Condition α} {go : α → State → Result}
    (hop : ∀ s u, op (s.withUnseen u) = op s) (hgo : ∀ v, IgnoresUnseen (go v)) :
    IgnoresUnseen fun s => attempt P s (op s) fun v => go v s :=
  ignoresUnseen_of_value (fun x s => attempt P s x fun v => go v s) hop fun
    | .ok v => hgo v
    | .error c => raised_alike c

theorem memRead_ignoresUnseen {a : Int} {go : Int → State → Result} (hgo : ∀ v, IgnoresUnseen (go v)) :
    IgnoresUnseen fun s => attempt P s (memRead P a s) fun v => go v s :=
  attempt_ignoresUnseen (fun _ _ => rfl) hgo

theorem memWrite_ignoresUnseen {a v : Int} {go : State → Result} (hgo : IgnoresUnseen go) :
    IgnoresUnseen fun s => attempt P s (memWrite P a v s) go := by
  intro s u
  by_cases h : inMemory P a
  · simp only [memWrite_ok h, attempt_ok]
    exact hgo (s.setCell a.toNat v) u
  · simp only [memWrite_error h, attempt_error]
    exact raised_alike _ s u

/-! ### Consuming operand cells -/

theorem fetchOperand_ignoresUnseen {go : State → Result} (hgo : IgnoresUnseen go) :
    IgnoresUnseen fun s => fetchOperand P s go := by
  intro s u
  dsimp only
  by_cases h : inMemory P (s.pc + 1)
  · rw [fetchOperand_go h, fetchOperand_go (s := s.withUnseen u) h]
    exact hgo (s.setPc (s.pc + 1)) u
  · rw [fetchOperand_raises h, fetchOperand_raises (s := s.withUnseen u) h]
    exact raised_alike _ s u

theorem fetchRegister_ignoresUnseen {id : Int} {go : Reg P → State → Result} (hgo : ∀ r, IgnoresUnseen (go r)) :
    IgnoresUnseen fun s => fetchRegister P id s go :=
  fetchOperand_ignoresUnseen (attempt_ignoresUnseen (fun _ _ => rfl) hgo)

theorem formRR_ignoresUnseen {regA regB : Int} {go : Reg P → Reg P → State → Result}
    (hgo : ∀ a b, IgnoresUnseen (go a b)) : IgnoresUnseen fun s => formRR P regA regB s go :=
  fetchRegister_ignoresUnseen fun a => fetchRegister_ignoresUnseen (hgo a)

theorem formPlainReg_ignoresUnseen {reg : Int} {go : Reg P → State → Result} (hgo : ∀ b, IgnoresUnseen (go b)) :
    IgnoresUnseen fun s => formPlainReg P reg s go :=
  fetchOperand_ignoresUnseen (fetchRegister_ignoresUnseen hgo)

theorem formRM_ignoresUnseen {reg : Int} {go : Reg P → State → Result} (hgo : ∀ a, IgnoresUnseen (go a)) :
    IgnoresUnseen fun s => formRM P reg s go :=
  fetchRegister_ignoresUnseen fun a => fetchOperand_ignoresUnseen (hgo a)

theorem formR_ignoresUnseen {reg : Int} {go : Reg P → State → Result} (hgo : ∀ a, IgnoresUnseen (go a)) :
    IgnoresUnseen fun s => formR P reg s go :=
  fetchRegister_ignoresUnseen hgo

theorem formPlain_ignoresUnseen {go : State → Result} (hgo : IgnoresUnseen go) :
    IgnoresUnseen fun s => formPlain P s go :=
  fetchOperand_ignoresUnseen hgo

theorem formRRT_ignoresUnseen {regA regB : Int} {go : Reg P → Reg P → State → Result}
    (hgo : ∀ a b, IgnoresUnseen (go a b)) : IgnoresUnseen fun s => formRRT P regA regB s go :=
  formRR_ignoresUnseen fun a b => fetchOperand_ignoresUnseen (hgo a b)

/-! ### The ways an instruction ends, with a value it has read from the state -/

theorem finish_ignoresUnseen : IgnoresUnseen (finish P) := fun s => completed_alike (s.pc + 1) s

theorem branch_ignoresUnseen {taken : State → Bool} {target : Int} (ht : ∀ s u, taken (s.withUnseen u) = taken s) :
    IgnoresUnseen fun s => branch P (taken s) target s :=
  ignoresUnseen_of_value (branch P · target) ht fun
    | true => completed_alike target
    | false => finish_ignoresUnseen

theorem finish_setX_ignoresUnseen {dest : Nat} {v : State → Int} (hv : ∀ s u, v (s.withUnseen u) = v s) :
    IgnoresUnseen fun s => finish P (s.setX dest (v s)) :=
  ignoresUnseen_of_value (fun x s => finish P (s.setX dest x)) hv fun x s => finish_ignoresUnseen (s.setX dest x)

theorem storeCell_ignoresUnseen {a : Int} {v : State → Int} (hv : ∀ s u, v (s.withUnseen u) = v s) :
    IgnoresUnseen fun s => attempt P s (memWrite P a (v s) s) fun s => finish P s :=
  ignoresUnseen_of_value (fun x s => attempt P s (memWrite P a x s) (finish P)) hv fun _ =>
    memWrite_ignoresUnseen finish_ignoresUnseen

theorem resultToReg_ignoresUnseen {dest : Nat} {r : State → Int} (hr : ∀ s u, r (s.withUnseen u) = r s) :
    IgnoresUnseen fun s => resultToReg P dest (r s) s :=
  ignoresUnseen_of_value (resultToReg P dest) hr fun x s => finish_ignoresUnseen ((s.setX dest x).setFlags x)

theorem resultToMem_ignoresUnseen {dest : Int} {r : State → Int} (hr : ∀ s u, r (s.withUnseen u) = r s) :
    IgnoresUnseen fun s => resultToMem P dest (r s) s :=
  ignoresUnseen_of_value (resultToMem P dest) hr fun x =>
    memWrite_ignoresUnseen fun s => finish_ignoresUnseen (s.setFlags x)

end Operations

/-- With `IMUL_SCRATCH_FINAL = product` the scratch cell gets the product, and no free value is read (R143). -/
theorem imulRegMem_ignoresUnseen (reg addr : Int) : IgnoresUnseen (execImulRegMem reg addr) := by
  refine formRM_ignoresUnseen fun a => memRead_ignoresUnseen fun v => ?_
  by_cases hv : v = 0
  · simp only [if_pos hv]
    exact resultToMem_ignoresUnseen fun _ _ => rfl
  · simp only [if_neg hv]
    refine attempt_ignoresUnseen (fun _ _ => rfl) fun sc => ?_
    exact ignoresUnseen_of_value (fun p s => attempt Config.hardware s (memWrite Config.hardware sc p s)
        (resultToMem Config.hardware addr p)) (v := fun s => s.x a * v) (fun _ _ => rfl) fun p =>
      memWrite_ignoresUnseen (resultToMem_ignoresUnseen fun _ _ => rfl)

theorem exec_ignoresUnseen (i : Instr) : IgnoresUnseen (exec i) := by
  cases i with
  | addRegReg | subRegReg | imulRegReg =>
    exact formRR_ignoresUnseen fun a b => resultToReg_ignoresUnseen fun _ _ => rfl
  | addMemReg | subMemReg | imulMemReg =>
    exact formPlainReg_ignoresUnseen fun b => memRead_ignoresUnseen fun v =>
      resultToReg_ignoresUnseen fun _ _ => rfl
  | addRegMem | subRegMem =>
    exact formRM_ignoresUnseen fun a => memRead_ignoresUnseen fun v => resultToMem_ignoresUnseen fun _ _ => rfl
  | imulRegMem reg addr => exact imulRegMem_ignoresUnseen reg addr
  | addImmReg | subImmReg =>
    exact formPlainReg_ignoresUnseen fun b => resultToReg_ignoresUnseen fun _ _ => rfl
  | incReg =>
    exact formR_ignoresUnseen fun a => resultToReg_ignoresUnseen (r := fun s => s.x a + 1) fun _ _ => rfl
  | moveRegReg => exact formRR_ignoresUnseen fun a b => finish_setX_ignoresUnseen fun _ _ => rfl
  | moveMemReg =>
    exact formPlainReg_ignoresUnseen fun b => memRead_ignoresUnseen fun v => finish_setX_ignoresUnseen fun _ _ => rfl
  | moveRegMem => exact formRM_ignoresUnseen fun a => storeCell_ignoresUnseen fun _ _ => rfl
  | moveImmReg => exact formPlainReg_ignoresUnseen fun b => finish_setX_ignoresUnseen fun _ _ => rfl
  | jmp target => exact formPlain_ignoresUnseen (completed_alike target)
  | jz => exact formPlain_ignoresUnseen (branch_ignoresUnseen (taken := (·.flags.z)) fun _ _ => rfl)
  | jn => exact formPlain_ignoresUnseen (branch_ignoresUnseen (taken := (·.flags.n)) fun _ _ => rfl)
  | jnz => exact formPlain_ignoresUnseen (branch_ignoresUnseen (taken := (·.flags.nz)) fun _ _ => rfl)
  | jeq | jgt | jlw => exact formRRT_ignoresUnseen fun a b => branch_ignoresUnseen fun _ _ => rfl
  | ldi imm => exact formPlain_ignoresUnseen (finish_setX_ignoresUnseen (v := fun _ => imm) fun _ _ => rfl)
  | read =>
    exact formPlain_ignoresUnseen
      (memRead_ignoresUnseen fun v => finish_setX_ignoresUnseen (v := fun _ => v) fun _ _ => rfl)
  | store => exact formPlain_ignoresUnseen (storeCell_ignoresUnseen (v := (·.x defaultReg)) fun _ _ => rfl)

/-- DECODE/EXECUTE reads `ir`, which FETCH has just loaded with the same cell in both states (R98, R99). -/
theorem decodeExecute_alike {s : State} {u : Unseen} (hir : u.ir = s.ir) :
    Alike (decodeExecute Config.hardware exec s) (decodeExecute Config.hardware exec (s.withUnseen u)) := by
  have hcells : instructionCells Config.hardware (s.withUnseen u) = instructionCells Config.hardware s :=
    congrArg (· :: _) hir
  unfold decodeExecute
  rw [hcells]
  split
  · exact exec_ignoresUnseen _ s u
  · exact stopped_alike s u

theorem step_alike {s : State} (hctl : s.ctl = .fetch) (u : Unseen) : Alike (step s) (step (s.withUnseen u)) := by
  unfold step
  rcases cycle_cases Config.hardware exec s with ⟨-, hpc, e⟩ | ⟨-, hpc, e⟩ | ⟨h, -⟩ | ⟨h, -⟩ | ⟨c, h, -⟩
  · rw [e, cycle_of_fetch (s := s.withUnseen u) hctl hpc]
    exact decodeExecute_alike (s := s.fetched) (u := ⟨_, _, _⟩) rfl
  · rw [e, cycle, show (s.withUnseen u).ctl = .fetch from hctl, fetchOpcode_error (s := s.withUnseen u) hpc]
    exact fetchFaulted_alike s u
  all_goals exact absurd (hctl.symm.trans h) nofun

/-- Settles O48: states that agree differ in their unseen part only, which no operation of a step reads. -/
theorem hiddenStateIsUnobservable : Obligations.HiddenStateIsUnobservable := by
  intro s s' t hctl hagree hstep
  rw [hagree.eq_withUnseen]
  obtain ⟨t₁, t', h₁, h', hlook⟩ := step_alike hctl ⟨s'.ir, s'.hid, s'.draws⟩
  cases hstep.symm.trans h₁
  exact ⟨t', h', hlook⟩

end Sys2Proof.Machine
end

section
/-! PROOFS. The flags after an instruction that completes and calls `setFlags` are those of some result (10_state.md R30,
R31), and so in one of the three states of R32. -/

namespace Sys2Proof.Machine

/-- If the state is that of an instruction that completed, its flags show some result. -/
def State.FlagsShowAResult (t : State) : Prop := t.ctl = .fetch → ∃ r, t.flags = flagsOf r

namespace State.FlagsShowAResult

/-- An error condition does not lead to FETCH. -/
theorem raised {P : Params} (s : State) (c : Condition) : (s.raised P c).FlagsShowAResult := nofun

theorem resultToReg {P : Params} {dest : Nat} {r : Int} {s : State} :
    EveryNext FlagsShowAResult (resultToReg P dest r s) :=
  everyNext_next fun _ => ⟨r, rfl⟩

theorem resultToMem {P : Params} {dest r : Int} {s : State} : EveryNext FlagsShowAResult (resultToMem P dest r s) :=
  memWrite_everyNext (raised s) fun _ => everyNext_next fun _ => ⟨r, rfl⟩

theorem imulRegMem (P : Params) (reg addr : Int) (s : State) :
    EveryNext FlagsShowAResult (imulRegMemWith P reg addr s) := by
  refine formRM_everyNext (raised s) fun a pc => memRead_everyNext (raised _) ?_
  split
  · exact resultToMem
  · exact attempt_everyNext (raised _) fun sc _ => memWrite_everyNext (raised _) fun _ => resultToMem

/-- Every instruction that calls `setFlags` (R31). -/
theorem execWith (P : Params) {i : Instr} (s : State) (hi : i.affectsFlags = true) :
    EveryNext FlagsShowAResult (execWith P i s) := by
  cases i with
  | addRegReg | subRegReg | imulRegReg => exact formRR_everyNext (raised s) fun _ _ _ => resultToReg
  | addMemReg | subMemReg | imulMemReg =>
    exact formPlainReg_everyNext (raised s) fun _ _ => memRead_everyNext (raised _) resultToReg
  | addRegMem | subRegMem =>
    exact formRM_everyNext (raised s) fun _ _ => memRead_everyNext (raised _) resultToMem
  | imulRegMem reg addr => exact imulRegMem P reg addr s
  | addImmReg | subImmReg => exact formPlainReg_everyNext (raised s) fun _ _ => resultToReg
  | incReg => exact formR_everyNext (raised s) fun _ _ => resultToReg
  | _ => cases hi

end State.FlagsShowAResult

/-- The relations of R32 between the flags of a result. -/
theorem flagsOf_relations (r : Int) :
    (flagsOf r).z = !(flagsOf r).nz ∧ ((flagsOf r).n = true → (flagsOf r).nz = true) := by
  rw [flagsOf_z, flagsOf_n, flagsOf_nz]
  refine ⟨by simp, fun hn => ?_⟩
  have hneg : r < 0 := of_decide_eq_true hn
  exact decide_eq_true hneg.ne

/-- Settles O38: an instruction that calls `setFlags` and completes leaves the flags of its result. -/
theorem flagStatesAfterArithmetic : Obligations.FlagStatesAfterArithmetic := by
  refine ⟨fun i s t hexec hctl hi => ?_, rfl⟩
  rw [← execWith_hardware] at hexec
  obtain ⟨r, hr⟩ := State.FlagsShowAResult.execWith Config.hardware s hi t hexec hctl
  rw [hr]
  exact flagsOf_relations r

end Sys2Proof.Machine
end

section
/-! PROOFS. The first fault among the operand cells is the one raised (40_datapath_and_cycle.md R106 step 1,
60_exceptions.md R197). A format consumes its cells one at a time, each from the state the cell before it left, and
`operandFault` counts them from the opcode cell; the two meet where the count is shifted into `pc`. -/

namespace Sys2Proof.Machine

/-- Cells counted from a `pc` that has passed the first cell are those that follow it. -/
theorem operandFault_setPc (P : Params) (s : State) (cells : List (OperandKind × Int)) (j : Nat) :
    operandFault P (s.setPc (s.pc + 1)) cells j = operandFault P s cells (j + 1) := by
  induction cells generalizing j with
  | nil => rfl
  | cons cell rest ih =>
    have haddr : s.pc + 1 + (j : Int) = s.pc + ((j + 1 : Nat) : Int) := by push_cast; ring
    simp only [operandFault, State.setPc_pc, haddr, ih]

/-- The meaning raises the first condition met while these operand cells are consumed, if there is one. -/
def RaisesOperandFault (P : Params) (s : State) (cells : List (OperandKind × Int)) (r : Result) : Prop :=
  ∀ c, operandFault P s cells 1 = some c → r = .next (s.raised P c)

theorem raisesOperandFault_nil {P : Params} {s : State} {r : Result} : RaisesOperandFault P s [] r := nofun

section Formats

variable {P : Params} {s : State} {kind : OperandKind} {v : Int} {rest : List (OperandKind × Int)}

/-! ### The first operand cell -/

theorem operandFault_outside (h : ¬ inMemory P (s.pc + 1)) :
    operandFault P s ((kind, v) :: rest) 1 = some (.outOfBounds (s.pc + 1)) := if_pos h

theorem operandFault_refused (h : inMemory P (s.pc + 1)) (hv : kind.accepts P v = false) :
    operandFault P s ((kind, v) :: rest) 1 = some (.invalidRegister v) :=
  (if_neg (not_not.2 h)).trans (if_pos hv)

theorem operandFault_consumed (h : inMemory P (s.pc + 1)) (hv : kind.accepts P v = true) :
    operandFault P s ((kind, v) :: rest) 1 = operandFault P (s.setPc (s.pc + 1)) rest 1 := by
  rw [operandFault_setPc]
  exact (if_neg (not_not.2 h)).trans (if_neg (by simp [hv]))

theorem accepts_reg_id (r : Reg P) : OperandKind.reg.accepts P r.id = true :=
  decide_eq_true ⟨Int.natCast_nonneg _, Int.ofNat_lt.2 r.isLt⟩

theorem accepts_reg_eq_false {id : Int} (h : id < 0 ∨ (P.ngpr : Int) ≤ id) : OperandKind.reg.accepts P id = false :=
  decide_eq_false (not_and_or.2 (h.imp not_le.2 not_lt.2))

/-- A plain cell, whose value nothing checks. -/
theorem fetchOperand_raisesOperandFault {go : State → Result} (hkind : kind.accepts P v = true)
    (hgo : RaisesOperandFault P (s.setPc (s.pc + 1)) rest (go (s.setPc (s.pc + 1)))) :
    RaisesOperandFault P s ((kind, v) :: rest) (fetchOperand P s go) := by
  intro c hc
  rcases fetchOperand_cases P s go with ⟨h, e⟩ | ⟨h, e⟩ <;> rw [e]
  · exact hgo c ((operandFault_consumed h hkind).symm.trans hc)
  · cases (operandFault_outside h).symm.trans hc
    rfl

theorem fetchRegister_raisesOperandFault {go : Reg P → State → Result}
    (hgo : ∀ r, RaisesOperandFault P (s.setPc (s.pc + 1)) rest (go r (s.setPc (s.pc + 1)))) :
    RaisesOperandFault P s ((.reg, v) :: rest) (fetchRegister P v s go) := by
  intro c hc
  rcases fetchRegister_cases P v s go with ⟨r, h, rfl, e⟩ | ⟨h, e⟩ | ⟨h, hv, e⟩ <;> rw [e]
  · exact hgo r c ((operandFault_consumed h (accepts_reg_id r)).symm.trans hc)
  · cases (operandFault_outside h).symm.trans hc
    rfl
  · cases (operandFault_refused h (accepts_reg_eq_false hv)).symm.trans hc
    rfl

/-! ### The formats -/

theorem formRR_raisesOperandFault {regA regB : Int} {go : Reg P → Reg P → State → Result} :
    RaisesOperandFault P s [(.reg, regA), (.reg, regB)] (formRR P regA regB s go) :=
  fetchRegister_raisesOperandFault fun _ => fetchRegister_raisesOperandFault fun _ => raisesOperandFault_nil

theorem formPlainReg_raisesOperandFault {reg : Int} {go : Reg P → State → Result} (hkind : kind.accepts P v = true) :
    RaisesOperandFault P s [(kind, v), (.reg, reg)] (formPlainReg P reg s go) :=
  fetchOperand_raisesOperandFault hkind (fetchRegister_raisesOperandFault fun _ => raisesOperandFault_nil)

theorem formRM_raisesOperandFault {reg m : Int} {go : Reg P → State → Result} :
    RaisesOperandFault P s [(.reg, reg), (.mem, m)] (formRM P reg s go) :=
  fetchRegister_raisesOperandFault fun _ => fetchOperand_raisesOperandFault rfl raisesOperandFault_nil

theorem formR_raisesOperandFault {reg : Int} {go : Reg P → State → Result} :
    RaisesOperandFault P s [(.reg, reg)] (formR P reg s go) :=
  fetchRegister_raisesOperandFault fun _ => raisesOperandFault_nil

theorem formPlain_raisesOperandFault {go : State → Result} (hkind : kind.accepts P v = true) :
    RaisesOperandFault P s [(kind, v)] (formPlain P s go) :=
  fetchOperand_raisesOperandFault hkind raisesOperandFault_nil

theorem formRRT_raisesOperandFault {regA regB target : Int} {go : Reg P → Reg P → State → Result} :
    RaisesOperandFault P s [(.reg, regA), (.reg, regB), (.target, target)] (formRRT P regA regB s go) := by
  rw [formRRT, formRR]
  exact fetchRegister_raisesOperandFault fun _ => fetchRegister_raisesOperandFault fun _ =>
    fetchOperand_raisesOperandFault rfl raisesOperandFault_nil

end Formats

/-- Every instruction consumes its operand cells in the order of its format (R74, R106). -/
theorem execWith_raisesOperandFault (P : Params) (i : Instr) (s : State) :
    RaisesOperandFault P s i.kindedOperands (execWith P i s) := by
  cases i with
  | addRegReg | subRegReg | imulRegReg | moveRegReg => exact formRR_raisesOperandFault
  | addMemReg | subMemReg | imulMemReg | moveMemReg => exact formPlainReg_raisesOperandFault rfl
  | addRegMem | subRegMem | imulRegMem | moveRegMem => exact formRM_raisesOperandFault
  | addImmReg | subImmReg | moveImmReg => exact formPlainReg_raisesOperandFault rfl
  | incReg => exact formR_raisesOperandFault
  | jmp | jz | jn | jnz => exact formPlain_raisesOperandFault rfl
  | ldi =>
    rw [execWith, ldiWith]
    exact formPlain_raisesOperandFault rfl
  | read =>
    rw [execWith, readWith]
    exact formPlain_raisesOperandFault rfl
  | store =>
    rw [execWith, storeWith]
    exact formPlain_raisesOperandFault rfl
  | jeq | jgt | jlw => exact formRRT_raisesOperandFault

/-- Settles O39: the state left by the condition raised holds registers, memory and flags as they were. -/
theorem operandFaultsInCellOrder : Obligations.OperandFaultsInCellOrder := by
  intro i s c hc
  have hraise := execWith_raisesOperandFault Config.hardware i s c hc
  rw [execWith_hardware] at hraise
  exact ⟨s.raised Config.hardware c, hraise, rfl, fun _ => rfl, fun _ => rfl, rfl⟩

end Sys2Proof.Machine
end

section
/-! PROOFS. The state after reset (10_state.md R38) and the register file (10_state.md R21, R24, 30_encoding.md R81). -/

namespace Sys2Proof.Machine

/-- Settles O47: reset lists no cell and no register, and its flags are 000. -/
theorem resetMeetsTheInvariant : Obligations.ResetMeetsTheInvariant :=
  ⟨State.reset_mem_wf, nofun, State.reset_mem_wf, nofun, .inl rfl⟩

/-- Settles O52: an unlisted register or cell reads as 0. -/
theorem resetState : Obligations.ResetState :=
  ⟨fun _ => rfl, rfl, rfl, rfl, fun _ => rfl, rfl, rfl, rfl, rfl, rfl, rfl, rfl⟩

theorem regEntryAt_natCast (P : Params) (i : Nat) : regEntryAt P i = (registerFile P)[i]? := by simp [regEntryAt]

theorem registerFile_length (P : Params) : (registerFile P).length = P.ngpr + 3 := by simp [registerFile]

/-- The first `NGPR` indices are the general-purpose registers (R21, R22). -/
theorem regEntryAt_gpr {P : Params} {i : Nat} (h : i < P.ngpr) : regEntryAt P i = some (.wired (.gpr i)) := by
  rw [regEntryAt_natCast, registerFile, List.getElem?_append_left (by simpa using h)]
  simp [h]

/-- PC, IR and FLAGS follow the general-purpose registers (R21). -/
theorem regEntryAt_ngpr_add (P : Params) (k : Nat) :
    regEntryAt P ((P.ngpr + k : Nat) : Int) = ([.wired .pc, .wired .ir, .flags] : List RegEntry)[k]? := by
  rw [regEntryAt_natCast, registerFile, List.getElem?_append_right (by simp)]
  simp

theorem regEntryAt_eq_none {P : Params} {i : Int} (h : i < 0 ∨ (P.ngpr : Int) + 3 ≤ i) : regEntryAt P i = none := by
  rcases h with hneg | hbig
  · exact if_neg (not_le.2 hneg)
  · have hlen := registerFile_length P
    obtain ⟨n, rfl⟩ := Int.eq_ofNat_of_zero_le (show 0 ≤ i by omega)
    rw [regEntryAt_natCast, List.getElem?_eq_none_iff]
    omega

/-- Settles O58: the entries by index, the refusal of every other id, and the six names of this hardware. -/
theorem registerFileOrder : Obligations.RegisterFileOrder :=
  ⟨fun P => ⟨fun _ => regEntryAt_gpr, regEntryAt_ngpr_add P 0, regEntryAt_ngpr_add P 1, regEntryAt_ngpr_add P 2,
    fun _ => regEntryAt_eq_none, fun _ => checkReg_error⟩, by decide⟩

end Sys2Proof.Machine
end

section
/-! PROOFS. The memory as the spec gives it (20_memory.md R50-R52, R60): two memories in the model's canonical form that
read alike are equal, an access reads or writes one cell or raises, and a store is seen by a later fetch. -/

namespace Sys2Proof.Machine

theorem Cells.wf_of_cons {c : Nat × Int} {m : Cells} (h : Cells.wf (c :: m)) : m.wf :=
  ⟨h.1.of_cons, fun d hd => h.2 d (List.mem_cons_of_mem c hd)⟩

/-- In canonical form, the entries are the indices that do not read as 0, with what they read as. -/
theorem Cells.mem_iff_read {m : Cells} (h : m.wf) {a : Nat} {v : Int} :
    (a, v) ∈ m ↔ v ≠ 0 ∧ Cells.read m a = v := by
  induction m with
  | nil => simp only [List.not_mem_nil, Cells.read, false_iff, not_and]; exact fun hv h0 => hv h0.symm
  | cons c rest ih =>
    obtain ⟨b, w⟩ := c
    have hw : w ≠ 0 := h.2 (b, w) List.mem_cons_self
    simp only [List.mem_cons, Prod.mk.injEq, ih (Cells.wf_of_cons h), Cells.read]
    by_cases hab : a = b
    · subst hab
      have hlast : (a, v) ∉ rest := fun hmem => lt_irrefl a (List.rel_of_pairwise_cons h.1 hmem)
      rw [← ih (Cells.wf_of_cons h), if_pos rfl]
      constructor
      · rintro (⟨-, rfl⟩ | hmem)
        · exact ⟨hw, rfl⟩
        · exact absurd hmem hlast
      · rintro ⟨-, rfl⟩
        exact .inl ⟨rfl, rfl⟩
    · simp [hab]

/-- Settles O49: both lists rise strictly, and have the same entries. -/
theorem canonicalMemoriesThatReadAlikeAreEqual : Obligations.CanonicalMemoriesThatReadAlikeAreEqual := by
  intro m n hm hn hread
  have hirrefl : Std.Irrefl fun c d : Nat × Int => c.1 < d.1 := ⟨fun c => lt_irrefl c.1⟩
  have hantisymm : Std.Antisymm fun c d : Nat × Int => c.1 < d.1 := ⟨fun _ _ h h' => absurd h (lt_asymm h')⟩
  refine hm.1.eq_of_mem_iff hn.1 fun c => ?_
  obtain ⟨a, v⟩ := c
  rw [Cells.mem_iff_read hm, Cells.mem_iff_read hn, hread a]

/-- Settles O50. -/
theorem memReadReadsOneCell : Obligations.MemReadReadsOneCell := fun _ _ _ => ⟨memRead_ok, memRead_error⟩

/-- Settles O51: of the cells, a write changes what the one it names reads as. -/
theorem memWriteWritesOneCell : Obligations.MemWriteWritesOneCell := by
  intro P a v s
  refine ⟨fun h => ⟨s.setCell a.toNat v, memWrite_ok h, ?_, fun b hb => ?_⟩, memWrite_error⟩
  · rw [State.setCell_cell, if_pos rfl]
  · rw [State.setCell_cell, if_neg (List.ne_of_not_mem_cons hb)]

/-- What `store` leaves when its operand cell and the cell it names are in memory (R182). -/
theorem storeWith_eq {P : Params} {m : Int} {s : State} (h1 : inMemory P (s.pc + 1)) (hm : inMemory P m) :
    storeWith P m s =
      .next (((s.setPc (s.pc + 1)).setCell m.toNat (s.x defaultReg)).completed P (s.pc + 2)) := by
  rw [storeWith, formPlain_go h1, memWrite_ok hm, attempt_ok, finish_eq, State.setCell_pc, State.setPc_pc,
    pc_add_one_one, State.setPc_x]

/-- Settles O31: the cell stored to is the one at the `pc` the store completes with, which the next FETCH loads. -/
theorem storeToTheNextOpcodeCellIsFetched : Obligations.StoreToTheNextOpcodeCellIsFetched := by
  intro s hctl hpc hpc2 hopcode hoperand
  have hpc1 : inMemory Config.hardware (s.pc + 1) := ⟨by omega, by omega⟩
  have hcells : instructionCells Config.hardware s.fetched = 25 :: (s.pc + 2) ::
      [cellOrZero Config.hardware s (s.pc + 2), cellOrZero Config.hardware s (s.pc + 3)] :=
    congrArg₂ (fun opcode operand => opcode :: operand :: _) hopcode ((if_pos hpc1).trans hoperand)
  have hdecode : decode Config.hardware (instructionCells Config.hardware s.fetched) = .ok (.store (s.pc + 2), _) :=
    congrArg (decode Config.hardware) hcells
  have hstep : step s = storeWith Config.hardware (s.pc + 2) s.fetched :=
    (cycle_of_fetch hctl hpc).trans (decodeExecute_of_decode hdecode)
  rw [storeWith_eq (s := s.fetched) hpc1 hpc2] at hstep
  refine ⟨_, _, hstep, rfl, rfl, fetchOpcode_ok hpc2, ?_⟩
  simp

/-- Settles O45: on this hardware every value is one of the width, so the invariant is kept as it is at any legal
parameters. -/
theorem everyStepKeepsTheInvariant : Obligations.EveryStepKeepsTheInvariant := by
  intro s t hinv hstep
  have hsound : s.Sound Config.hardware := ⟨hinv, fun _ => rfl, fun _ => rfl⟩
  rw [← stepWith_hardware] at hstep
  exact (hsound.stepWith hardware_legal t hstep).inv

end Sys2Proof.Machine
end

section
/-! PROOFS. What an instruction can raise: the first fault among its operand cells, or, once those are consumed, a memory
operand outside memory or a failed scratch search (40_datapath_and_cycle.md R106, 60_exceptions.md R191, R193). -/

namespace Sys2Proof

/-- The memory operand of an instruction, if it has one. -/
def Instr.memOperand (i : Instr) : Option Int := i.kindedOperands.lookup .mem

/-- No format has two memory operands (R74). -/
theorem mem_kindedOperands_iff {i : Instr} {m : Int} :
    (OperandKind.mem, m) ∈ i.kindedOperands ↔ i.memOperand = some m := by
  cases i <;> simp [Instr.memOperand, Instr.kindedOperands, Instr.operands, Instr.mnemonic, Mnemonic.format,
    Format.kinds, List.lookup, beq_eq_decide, eq_comm]

theorem kindedOperands_length_le (i : Instr) : i.kindedOperands.length ≤ i.mnemonic.format.k := by
  rw [Instr.kindedOperands, List.length_zip]
  exact min_le_left _ _

end Sys2Proof

namespace Sys2Proof.Machine

/-! ### The operand cells -/

/-- `OutOfBounds` among the operand cells records the address of one of them, outside memory. -/
theorem operandFault_outOfBounds {P : Params} {s : State} {cells : List (OperandKind × Int)} {j : Nat} {a : Int}
    (h : operandFault P s cells j = some (.outOfBounds a)) :
    ¬ inMemory P a ∧ ∃ n : Nat, j ≤ n ∧ n < j + cells.length ∧ a = s.pc + (n : Int) := by
  induction cells generalizing j with
  | nil => cases h
  | cons cell rest ih =>
    rw [operandFault] at h
    split at h
    · next hout =>
      cases h
      exact ⟨hout, j, le_rfl, Nat.lt_add_of_pos_right (Nat.succ_pos _), rfl⟩
    · split at h
      · cases h
      · obtain ⟨hout, n, hjn, hn, ha⟩ := ih h
        exact ⟨hout, n, by omega, by rw [List.length_cons]; omega, ha⟩

/-- If these operand cells are consumed without a fault, the result has the property. -/
def OnceConsumed (P : Params) (s : State) (cells : List (OperandKind × Int)) (R : Result → Prop) (r : Result) : Prop :=
  operandFault P s cells 1 = none → R r

section Formats

variable {P : Params} {s : State} {kind : OperandKind} {v : Int} {rest : List (OperandKind × Int)} {R : Result → Prop}

theorem fetchOperand_onceConsumed {go : State → Result} (hkind : kind.accepts P v = true)
    (hgo : OnceConsumed P (s.setPc (s.pc + 1)) rest R (go (s.setPc (s.pc + 1)))) :
    OnceConsumed P s ((kind, v) :: rest) R (fetchOperand P s go) := by
  intro hnone
  rcases fetchOperand_cases P s go with ⟨h, e⟩ | ⟨h, -⟩
  · rw [e]
    exact hgo ((operandFault_consumed h hkind).symm.trans hnone)
  · cases (operandFault_outside h).symm.trans hnone

theorem fetchRegister_onceConsumed {go : Reg P → State → Result}
    (hgo : ∀ r, OnceConsumed P (s.setPc (s.pc + 1)) rest R (go r (s.setPc (s.pc + 1)))) :
    OnceConsumed P s ((.reg, v) :: rest) R (fetchRegister P v s go) := by
  intro hnone
  rcases fetchRegister_cases P v s go with ⟨r, h, rfl, e⟩ | ⟨h, -⟩ | ⟨h, hv, -⟩
  · rw [e]
    exact hgo r ((operandFault_consumed h (accepts_reg_id r)).symm.trans hnone)
  · cases (operandFault_outside h).symm.trans hnone
  · cases (operandFault_refused h (accepts_reg_eq_false hv)).symm.trans hnone

theorem formRR_onceConsumed {regA regB : Int} {go : Reg P → Reg P → State → Result}
    (hgo : ∀ a b pc, R (go a b (s.setPc pc))) :
    OnceConsumed P s [(.reg, regA), (.reg, regB)] R (formRR P regA regB s go) :=
  fetchRegister_onceConsumed fun a => fetchRegister_onceConsumed fun b _ => hgo a b _

theorem formPlainReg_onceConsumed {reg : Int} {go : Reg P → State → Result} (hkind : kind.accepts P v = true)
    (hgo : ∀ b pc, R (go b (s.setPc pc))) :
    OnceConsumed P s [(kind, v), (.reg, reg)] R (formPlainReg P reg s go) :=
  fetchOperand_onceConsumed hkind (fetchRegister_onceConsumed fun b _ => hgo b _)

theorem formRM_onceConsumed {reg m : Int} {go : Reg P → State → Result} (hgo : ∀ a pc, R (go a (s.setPc pc))) :
    OnceConsumed P s [(.reg, reg), (.mem, m)] R (formRM P reg s go) :=
  fetchRegister_onceConsumed fun a => fetchOperand_onceConsumed rfl fun _ => hgo a _

theorem formR_onceConsumed {reg : Int} {go : Reg P → State → Result} (hgo : ∀ a pc, R (go a (s.setPc pc))) :
    OnceConsumed P s [(.reg, reg)] R (formR P reg s go) :=
  fetchRegister_onceConsumed fun a _ => hgo a _

theorem formPlain_onceConsumed {go : State → Result} (hkind : kind.accepts P v = true)
    (hgo : ∀ pc, R (go (s.setPc pc))) : OnceConsumed P s [(kind, v)] R (formPlain P s go) :=
  fetchOperand_onceConsumed hkind fun _ => hgo _

theorem formRRT_onceConsumed {regA regB target : Int} {go : Reg P → Reg P → State → Result}
    (hgo : ∀ a b pc, R (go a b (s.setPc pc))) :
    OnceConsumed P s [(.reg, regA), (.reg, regB), (.target, target)] R (formRRT P regA regB s go) := by
  rw [formRRT, formRR]
  exact fetchRegister_onceConsumed fun a => fetchRegister_onceConsumed fun b =>
    fetchOperand_onceConsumed rfl fun _ => hgo a b _

end Formats

/-! ### The memory operand -/

/-- The meaning ends with the state of an instruction that completed, or with the one that a failed scratch search
leaves. -/
def CompletesOrNoScratch (P : Params) (s : State) (r : Result) : Prop :=
  (∃ t, r = .next t ∧ t.ctl = .fetch) ∨ r = .next (s.raised P .noScratchCell)

/-- A meaning with this memory operand raises `OutOfBounds` of it exactly where it is outside memory (R51, R52). -/
def ChecksMemOperand (P : Params) (s : State) (operand : Option Int) (r : Result) : Prop :=
  (∃ m, operand = some m ∧ ¬ inMemory P m ∧ r = .next (s.raised P (.outOfBounds m))) ∨
  ((∀ m, operand = some m → inMemory P m) ∧ CompletesOrNoScratch P s r)

section MemOperand

variable {P : Params} {s : State} {m : Int}

theorem finish_completesOrNoScratch (s' : State) : CompletesOrNoScratch P s (finish P s') := .inl ⟨_, rfl, rfl⟩

theorem resultToMem_completesOrNoScratch (hm : inMemory P m) (r : Int) (s' : State) :
    CompletesOrNoScratch P s (resultToMem P m r s') :=
  .inl ⟨_, resultToMem_ok r hm, rfl⟩

/-- No memory operand, and so nothing to check. -/
theorem checksMemOperand_none {r : Result} (h : CompletesOrNoScratch P s r) : ChecksMemOperand P s none r :=
  .inr ⟨nofun, h⟩

theorem branch_checksMemOperand (taken : Bool) (target : Int) (s' : State) :
    ChecksMemOperand P s none (branch P taken target s') :=
  checksMemOperand_none (.inl ⟨_, branch_eq P taken target s', rfl⟩)

theorem memRead_checksMemOperand {go : Int → Result}
    (hgo : inMemory P m → CompletesOrNoScratch P s (go (s.cell m.toNat))) :
    ChecksMemOperand P s (some m) (attempt P s (memRead P m s) go) := by
  rcases memRead_cases P m s with ⟨h, e⟩ | ⟨h, e⟩ <;> rw [e]
  · exact .inr ⟨fun _ hm => Option.some.inj hm ▸ h, hgo h⟩
  · exact .inl ⟨m, rfl, h, rfl⟩

theorem memWrite_checksMemOperand {v : Int} {go : State → Result}
    (hgo : CompletesOrNoScratch P s (go (s.setCell m.toNat v))) :
    ChecksMemOperand P s (some m) (attempt P s (memWrite P m v s) go) := by
  rcases memWrite_cases P m v s with ⟨h, e⟩ | ⟨h, e⟩ <;> rw [e]
  · exact .inr ⟨fun _ hm => Option.some.inj hm ▸ h, hgo⟩
  · exact .inl ⟨m, rfl, h, rfl⟩

/-- Everything the scratch search can do (R144). -/
theorem scratch_cases (P : Params) (s : State) :
    (∃ sc : Nat, inMemory P sc ∧ scratch P s = .ok sc) ∨ scratch P s = .error .noScratchCell := by
  rw [scratch]
  cases e : scratchBelow s.mem P.memSize with
  | none => exact .inr rfl
  | some sc => exact .inl ⟨sc, ⟨Int.natCast_nonneg sc, Int.ofNat_lt.2 (scratchBelow_some e).1⟩, rfl⟩

/-- The scratch cell is in memory, so the write to it raises nothing. -/
theorem scratch_completesOrNoScratch {v : Int} {go : State → Result} (hgo : ∀ s', CompletesOrNoScratch P s (go s')) :
    CompletesOrNoScratch P s
      (attempt P s (scratch P s) fun sc => attempt P s (memWrite P sc v s) go) := by
  rcases scratch_cases P s with ⟨sc, hsc, e⟩ | e <;> rw [e]
  · rw [attempt_ok, memWrite_ok hsc]
    exact hgo _
  · exact .inr rfl

end MemOperand

/-- After its operand cells, an instruction checks its memory operand first and can then only complete, or fail to find a
scratch cell (R106). -/
theorem execWith_checksMemOperand (P : Params) (i : Instr) (s : State) :
    OnceConsumed P s i.kindedOperands (ChecksMemOperand P s i.memOperand) (execWith P i s) := by
  cases i with
  | addRegReg | subRegReg | imulRegReg | moveRegReg =>
    exact formRR_onceConsumed fun _ _ _ => checksMemOperand_none (finish_completesOrNoScratch _)
  | addMemReg | subMemReg | imulMemReg | moveMemReg =>
    exact formPlainReg_onceConsumed rfl fun _ pc =>
      memRead_checksMemOperand (s := s.setPc pc) fun _ => finish_completesOrNoScratch _
  | addRegMem | subRegMem =>
    exact formRM_onceConsumed fun _ pc =>
      memRead_checksMemOperand (s := s.setPc pc) fun hm => resultToMem_completesOrNoScratch hm _ _
  | imulRegMem =>
    refine formRM_onceConsumed fun _ pc => memRead_checksMemOperand (s := s.setPc pc) fun hm => ?_
    split
    · exact resultToMem_completesOrNoScratch hm _ _
    · exact scratch_completesOrNoScratch fun _ => resultToMem_completesOrNoScratch hm _ _
  | moveRegMem =>
    exact formRM_onceConsumed fun _ pc => memWrite_checksMemOperand (s := s.setPc pc) (finish_completesOrNoScratch _)
  | addImmReg | subImmReg | moveImmReg =>
    exact formPlainReg_onceConsumed rfl fun _ _ => checksMemOperand_none (finish_completesOrNoScratch _)
  | incReg => exact formR_onceConsumed fun _ _ => checksMemOperand_none (finish_completesOrNoScratch _)
  | jmp => exact formPlain_onceConsumed rfl fun _ => checksMemOperand_none (.inl ⟨_, rfl, rfl⟩)
  | jz | jn | jnz => exact formPlain_onceConsumed rfl fun _ => branch_checksMemOperand _ _ _
  | jeq | jgt | jlw => exact formRRT_onceConsumed fun _ _ _ => branch_checksMemOperand _ _ _
  | ldi =>
    rw [execWith, ldiWith]
    exact formPlain_onceConsumed rfl fun _ => checksMemOperand_none (finish_completesOrNoScratch _)
  | read =>
    rw [execWith, readWith]
    exact formPlain_onceConsumed rfl fun pc =>
      memRead_checksMemOperand (s := s.setPc pc) fun _ => finish_completesOrNoScratch _
  | store =>
    rw [execWith, storeWith]
    exact formPlain_onceConsumed rfl fun pc =>
      memWrite_checksMemOperand (s := s.setPc pc) (finish_completesOrNoScratch _)

/-- Settles O40: an instruction whose memory operand is outside memory cannot end otherwise. -/
theorem dataAddressOutsideMemoryFaults : Obligations.DataAddressOutsideMemoryFaults := by
  intro i s m hm hconsumed hout
  have hoperand := mem_kindedOperands_iff.1 hm
  have hends := execWith_checksMemOperand Config.hardware i s hconsumed
  rw [execWith_hardware] at hends
  rcases hends with ⟨m', hm', -, hraise⟩ | ⟨hin, -⟩
  · cases hm'.symm.trans hoperand
    exact ⟨_, hraise, rfl, fun _ => rfl, fun _ => rfl, rfl⟩
  · exact absurd (hin m hoperand) hout

/-- Settles O41: the condition is raised while the operand cells are consumed, and records one of them, or after that,
and records the memory operand. -/
theorem outOfBoundsOnlyForCellsOutsideMemory : Obligations.OutOfBoundsOnlyForCellsOutsideMemory := by
  intro i s t a hexec habort
  rw [← execWith_hardware] at hexec
  cases hfault : operandFault Config.hardware s i.kindedOperands 1 with
  | some c =>
    cases hexec.symm.trans (execWith_raisesOperandFault Config.hardware i s c hfault)
    cases habort
    obtain ⟨hout, j, hj, hlt, ha⟩ := operandFault_outOfBounds hfault
    have hlen := kindedOperands_length_le i
    exact ⟨hout, .inr ⟨j, hj, by omega, ha⟩⟩
  | none =>
    have hends := execWith_checksMemOperand Config.hardware i s hfault
    rw [hexec] at hends
    rcases hends with ⟨m, hm, hout, hraise⟩ | ⟨-, ⟨u, hu, hctl⟩ | hraise⟩
    · cases hraise
      cases habort
      exact ⟨hout, .inl (mem_kindedOperands_iff.2 hm)⟩
    · cases hu
      cases hctl.symm.trans habort
    · cases hraise
      cases habort

end Sys2Proof.Machine
end

section
/-! PROOFS. The encoding of an instruction (30_encoding.md R70-R75): how many cells it has, and that the decoder and the
encoder undo each other. -/

namespace Sys2Proof

/-- Every row has the operand cells of its format (R73, R74). -/
theorem operands_length (i : Instr) : i.operands.length = i.mnemonic.format.k := by cases i <;> rfl

/-- A row reads back the operands of its instructions, in cell order (R74). -/
theorem decodeOperands_operands (i : Instr) (rest : List Int) :
    decodeOperands i.mnemonic (i.operands ++ rest) = .ok (i, rest) := by
  cases i <;> rfl

/-- The whole opcode cell finds the row, and the row reads the cells after it (R71, R75). -/
theorem decode_cons_of_mnemonicOf {P : Params} {opcode : Int} {m : Mnemonic} (h : mnemonicOf P opcode = some m)
    (cells : List Int) : decode P (opcode :: cells) = decodeOperands m cells := by
  rw [decode, h]

/-- No cell after an undecodable opcode is read (R76). -/
theorem decode_cons_of_undecodable {P : Params} {opcode : Int} (h : mnemonicOf P opcode = none) (cells : List Int) :
    decode P (opcode :: cells) = .error (.undecodable opcode) := by
  rw [decode, h]

/-- Settles O1: an injective `OPCODE_OF` leads from the opcode cell back to the row, which reads its operands back. -/
theorem decodeOfEncodeIsIdentity : Obligations.DecodeOfEncodeIsIdentity := by
  intro P i rest hP
  have hrow := mnemonicOf_opcodeOf hP.opcode_injective i.mnemonic
  rw [encode, List.cons_append, decode_cons_of_mnemonicOf hrow, decodeOperands_operands]

/-- Settles O2: the decoder takes the opcode cell and the operand cells, and leaves the cells after them. -/
theorem encodeOfDecodeIsIdentity : Obligations.EncodeOfDecodeIsIdentity := fun _ _ _ _ => decode_ok

/-- Settles O4: each run of cells is the encoding of the instruction it stands for, so O1 decodes it. -/
theorem specEncodingsDecode : Obligations.SpecEncodingsDecode := by
  intro row hrow
  have hcells : row.1 = encode Config.hardware row.2 := by
    revert row
    decide
  rw [hcells]
  exact decodeOfEncodeIsIdentity Config.hardware row.2 [-1] hardware_legal

/-- Settles O5: the opcode cell stands before the operand cells, as many as the format has. -/
theorem encodingHasOneOpcodeCellAndItsOperands : Obligations.EncodingHasOneOpcodeCellAndItsOperands := by
  intro i P
  rw [encode, List.length_cons, operands_length, Nat.add_comm]

/-- On this hardware the undecodable values are those below 0 or above 25 (R76). -/
theorem mnemonicOf_hardware_eq_none_iff {v : Int} : mnemonicOf Config.hardware v = none ↔ v < 0 ∨ 25 < v := by
  constructor
  · intro hnone
    by_contra hrange
    obtain ⟨m, hm, -⟩ := mnemonicOf_hardware_of_range (v := v) (by omega) (by omega)
    cases hnone.symm.trans hm
  · intro hout
    refine mnemonicOf_eq_none_iff.2 fun m hm => ?_
    have hrange : 0 ≤ Config.hardware.opcodeOf m ∧ Config.hardware.opcodeOf m ≤ 25 := opcodeOf_range m
    omega

end Sys2Proof
end

section
/-! PROOFS. Only an undecodable opcode halts the machine (30_encoding.md R76, 40_datapath_and_cycle.md R99): DECODE/EXECUTE
of one does, and every instruction ends at FETCH or FAULTED (R97). -/

namespace Sys2Proof.Machine

/-- With no handler for `ir`, DECODE/EXECUTE halts, whatever the cells after the opcode cell hold (R99). -/
theorem decodeExecute_of_undecodable {P : Params} {dispatch : Instr → State → Result} {s : State}
    (h : mnemonicOf P s.ir = none) : decodeExecute P dispatch s = .next (s.stopped P) := by
  rw [decodeExecute, instructionCells, decode_cons_of_undecodable h, halt_eq]

/-- Every instruction answers a next state, back at FETCH or FAULTED (R97, R105): it raises at an operand cell or at its
memory operand, or it completes, or it finds no scratch cell. -/
theorem execWith_fetchOrFaulted (P : Params) (i : Instr) (s : State) :
    ∃ t, execWith P i s = .next t ∧ (t.ctl = .fetch ∨ ∃ c, t.AbortedBy c) := by
  cases hfault : operandFault P s i.kindedOperands 1 with
  | some c => exact ⟨_, execWith_raisesOperandFault P i s c hfault, .inr ⟨c, rfl⟩⟩
  | none =>
    rcases execWith_checksMemOperand P i s hfault with ⟨m, -, -, hraise⟩ | ⟨-, ⟨t, ht, hctl⟩ | hraise⟩
    · exact ⟨_, hraise, .inr ⟨_, rfl⟩⟩
    · exact ⟨t, ht, .inl hctl⟩
    · exact ⟨_, hraise, .inr ⟨_, rfl⟩⟩

/-- No instruction halts (R208). -/
theorem exec_not_endedNormally {i : Instr} {s t : State} (h : exec i s = .next t) : ¬ t.EndedNormally := by
  obtain ⟨u, hu, hctl⟩ := execWith_fetchOrFaulted Config.hardware i s
  rw [execWith_hardware, h] at hu
  cases hu
  intro hhalted
  rcases hctl with hfetch | ⟨c, hfaulted⟩
  · cases hhalted.symm.trans hfetch
  · cases hhalted.symm.trans hfaulted

/-- Settles O10: after FETCH the opcode is in `ir`; it is undecodable exactly outside 0 to 25, and otherwise an
instruction is run, which does not halt. -/
theorem haltsExactlyOnUndecodableOpcodes : Obligations.HaltsExactlyOnUndecodableOpcodes := by
  intro s hctl hpc
  have hstep : step s = decodeExecute Config.hardware exec s.fetched := cycle_of_fetch hctl hpc
  rw [hstep]
  constructor
  · intro hout
    have hnone : mnemonicOf Config.hardware s.fetched.ir = none := mnemonicOf_hardware_eq_none_iff.2 hout
    exact ⟨_, decodeExecute_of_undecodable hnone, rfl, rfl, rfl, fun _ => rfl, fun _ => rfl, rfl⟩
  · intro h0 h25 t ht
    rcases decodeExecute_cases Config.hardware exec s.fetched with ⟨i, rest, -, e⟩ | ⟨hnone, -⟩
    · exact exec_not_endedNormally (e.symm.trans ht)
    · have hout : s.cell s.pc.toNat < 0 ∨ 25 < s.cell s.pc.toNat := mnemonicOf_hardware_eq_none_iff.1 hnone
      omega

end Sys2Proof.Machine
end

section
/-! PROOFS. What an instruction that completes may change (40_datapath_and_cycle.md R108) and where it leaves `pc` (R98,
R101-R103): every update a meaning makes is one its rule names, and every meaning ends at the `pc` of the PC law. -/

namespace Sys2Proof

/-- The `pc` an instruction completes with, by the PC law (R104). -/
def Instr.nextPc (i : Instr) (s : Machine.State) : Int := (i.takenTarget s).getD (s.pc + 1 + (i.mnemonic.format.k : Int))

/-- The cell is the destination the rule names, or the scratch cell of `imulRegMem` at a nonzero multiplier (R143). -/
def Instr.NamesCell (P : Params) (i : Instr) (s : Machine.State) (a : Nat) : Prop :=
  i.destCell.map Int.toNat = some a ∨
    (∃ reg addr, i = .imulRegMem reg addr ∧ s.cell addr.toNat ≠ 0) ∧ s.ScratchCell P a

/-- From the last operand cell, an instruction that takes no jump falls through to the `pc` of the PC law (R102). -/
theorem nextPc_of_fallsThrough {i : Instr} {s : Machine.State} {pc : Int} (hjump : i.takenTarget s = none)
    (hpc : pc = s.pc + (i.mnemonic.format.k : Int)) : pc + 1 = i.nextPc s := by
  rw [Instr.nextPc, hjump, Option.getD_none, hpc]
  ring

/-- From the last operand cell, a jump leads to its target or falls through (R103). -/
theorem nextPc_of_branch {i : Instr} {s : Machine.State} {pc target : Int} {taken : Bool}
    (hjump : i.takenTarget s = if taken then some target else none)
    (hpc : pc = s.pc + (i.mnemonic.format.k : Int)) : (if taken then target else pc + 1) = i.nextPc s := by
  cases taken with
  | true => rw [Instr.nextPc, hjump]; rfl
  | false => exact nextPc_of_fallsThrough hjump hpc

end Sys2Proof

namespace Sys2Proof.Machine

/-! ### What every next state of a meaning has in common, with the `pc` and the registers its operand cells give -/

section Formats

variable {P : Params} {s : State} {Q : State → Prop} (hraise : ∀ c, Q (s.raised P c))
include hraise

theorem formRR_everyNextAt {regA regB : Int} {go : Reg P → Reg P → State → Result}
    (hgo : ∀ a b : Reg P, regA = a.id → regB = b.id → EveryNext Q (go a b (s.setPc (s.pc + 2)))) :
    EveryNext Q (formRR P regA regB s go) := by
  rcases formRR_cases P regA regB s go with
    ⟨a, b, -, -, ha, hb, e⟩ | ⟨-, e⟩ | ⟨-, -, e⟩ | ⟨-, -, -, -, e⟩ | ⟨-, -, -, -, -, e⟩ <;> rw [e]
  · exact hgo a b ha hb
  all_goals exact everyNext_next (hraise _)

theorem formPlainReg_everyNextAt {reg : Int} {go : Reg P → State → Result}
    (hgo : ∀ b : Reg P, reg = b.id → EveryNext Q (go b (s.setPc (s.pc + 2)))) :
    EveryNext Q (formPlainReg P reg s go) := by
  rcases formPlainReg_cases P reg s go with ⟨b, -, -, hb, e⟩ | ⟨-, e⟩ | ⟨-, -, e⟩ | ⟨-, -, -, e⟩ <;> rw [e]
  · exact hgo b hb
  all_goals exact everyNext_next (hraise _)

theorem formRM_everyNextAt {reg : Int} {go : Reg P → State → Result}
    (hgo : ∀ a : Reg P, reg = a.id → EveryNext Q (go a (s.setPc (s.pc + 2)))) :
    EveryNext Q (formRM P reg s go) := by
  rcases formRM_cases P reg s go with ⟨a, -, -, ha, e⟩ | ⟨-, e⟩ | ⟨-, -, e⟩ | ⟨-, -, -, -, e⟩ <;> rw [e]
  · exact hgo a ha
  all_goals exact everyNext_next (hraise _)

theorem formR_everyNextAt {reg : Int} {go : Reg P → State → Result}
    (hgo : ∀ a : Reg P, reg = a.id → EveryNext Q (go a (s.setPc (s.pc + 1)))) :
    EveryNext Q (formR P reg s go) := by
  rw [formR]
  rcases fetchRegister_cases P reg s go with ⟨a, -, ha, e⟩ | ⟨-, e⟩ | ⟨-, -, e⟩ <;> rw [e]
  · exact hgo a ha
  all_goals exact everyNext_next (hraise _)

theorem formPlain_everyNextAt {go : State → Result} (hgo : EveryNext Q (go (s.setPc (s.pc + 1)))) :
    EveryNext Q (formPlain P s go) := by
  rw [formPlain]
  rcases fetchOperand_cases P s go with ⟨-, e⟩ | ⟨-, e⟩ <;> rw [e]
  · exact hgo
  · exact everyNext_next (hraise _)

theorem formRRT_everyNextAt {regA regB : Int} {go : Reg P → Reg P → State → Result}
    (hgo : ∀ a b : Reg P, regA = a.id → regB = b.id → EveryNext Q (go a b (s.setPc (s.pc + 3)))) :
    EveryNext Q (formRRT P regA regB s go) := by
  rcases formRRT_cases P regA regB s go with
    ⟨a, b, -, -, -, ha, hb, e⟩ | ⟨-, e⟩ | ⟨-, -, e⟩ | ⟨-, -, -, -, e⟩ | ⟨-, -, -, -, -, e⟩ | ⟨-, -, -, -, -, -, -, e⟩ <;>
    rw [e]
  · exact hgo a b ha hb
  all_goals exact everyNext_next (hraise _)

end Formats

/-- What the scratch search finds is the scratch cell (R144). -/
theorem scratchCell_of_scratch {P : Params} {s : State} {sc : Nat} (h : scratch P s = .ok sc) :
    s.ScratchCell P sc := by
  rw [scratch] at h
  cases e : scratchBelow s.mem P.memSize with
  | none => rw [e] at h; cases h
  | some j => rw [e] at h; cases h; exact scratchBelow_some e

/-! ### The updates of the state and the ways an instruction ends -/

/-- Registers, cells and flags differ only where the rule of this instruction names a destination (R108). -/
structure State.ChangedBy (P : Params) (i : Instr) (s t : State) : Prop where
  regs : ∀ r : Nat, i.destRegister ≠ some (r : Int) → t.x r = s.x r
  cells : ∀ a : Nat, ¬ i.NamesCell P s a → t.cell a = s.cell a
  flags : i.affectsFlags = false → t.flags = s.flags

/-- If the state is that of an instruction that completed, the instruction changed only what its rule names, and `pc` is
that of the PC law. -/
def State.FollowsRule (P : Params) (i : Instr) (s t : State) : Prop :=
  t.ctl = .fetch → s.ChangedBy P i t ∧ t.pc = i.nextPc s

/-- An error condition does not lead to FETCH. -/
theorem State.FollowsRule.raised {P : Params} {i : Instr} {s : State} (u : State) (c : Condition) :
    s.FollowsRule P i (u.raised P c) := nofun

namespace State.ChangedBy

variable {P : Params} {i : Instr} {s t : State}

/-- Consuming operand cells changes `pc` alone. -/
theorem consumed (pc : Int) : s.ChangedBy P i (s.setPc pc) := ⟨fun _ _ => rfl, fun _ _ => rfl, fun _ => rfl⟩

theorem setX (h : s.ChangedBy P i t) {r : Nat} (hr : i.destRegister = some (r : Int)) (v : Int) :
    s.ChangedBy P i (t.setX r v) := by
  refine ⟨fun q hq => ?_, h.cells, h.flags⟩
  have hne : q ≠ r := fun hqr => hq (hqr ▸ hr)
  rw [State.setX_x, if_neg hne, h.regs q hq]

theorem setCell (h : s.ChangedBy P i t) {a : Nat} (ha : i.NamesCell P s a) (v : Int) :
    s.ChangedBy P i (t.setCell a v) := by
  refine ⟨h.regs, fun b hb => ?_, h.flags⟩
  have hne : b ≠ a := fun hba => hb (hba ▸ ha)
  rw [State.setCell_cell, if_neg hne, h.cells b hb]

theorem setFlags (h : s.ChangedBy P i t) (hi : i.affectsFlags = true) (r : Int) : s.ChangedBy P i (t.setFlags r) :=
  ⟨h.regs, h.cells, fun hi' => absurd (hi.symm.trans hi') nofun⟩

theorem complete (h : s.ChangedBy P i t) {pc : Int} (hpc : pc = i.nextPc s) :
    EveryNext (s.FollowsRule P i) (complete P pc t) :=
  everyNext_next fun _ => ⟨⟨h.regs, h.cells, h.flags⟩, hpc⟩

theorem branch (h : s.ChangedBy P i t) {taken : Bool} {target : Int}
    (hjump : i.takenTarget s = if taken then some target else none)
    (hpc : t.pc = s.pc + (i.mnemonic.format.k : Int)) :
    EveryNext (s.FollowsRule P i) (branch P taken target t) := by
  rw [branch_eq]
  exact h.complete (nextPc_of_branch hjump hpc)

section FallsThrough

variable (hjump : i.takenTarget s = none) (hpc : t.pc = s.pc + (i.mnemonic.format.k : Int))
include hjump hpc

theorem finish (h : s.ChangedBy P i t) : EveryNext (s.FollowsRule P i) (finish P t) :=
  h.complete (nextPc_of_fallsThrough hjump hpc)

theorem finish_setX (h : s.ChangedBy P i t) {r : Nat} (hr : i.destRegister = some (r : Int)) (v : Int) :
    EveryNext (s.FollowsRule P i) (Machine.finish P (t.setX r v)) :=
  (h.setX hr v).finish hjump hpc

theorem resultToReg (h : s.ChangedBy P i t) (hi : i.affectsFlags = true) {dest : Nat}
    (hd : i.destRegister = some (dest : Int)) (r : Int) :
    EveryNext (s.FollowsRule P i) (resultToReg P dest r t) :=
  ((h.setX hd r).setFlags hi r).finish hjump hpc

theorem storeCell (h : s.ChangedBy P i t) {m : Int} (hm : i.destCell = some m) (v : Int) :
    EveryNext (s.FollowsRule P i) (attempt P t (memWrite P m v t) fun u => Machine.finish P u) :=
  memWrite_everyNext (FollowsRule.raised t) fun _ =>
    (h.setCell (.inl (congrArg (Option.map Int.toNat) hm)) v).finish hjump hpc

theorem resultToMem (h : s.ChangedBy P i t) (hi : i.affectsFlags = true) {m : Int} (hm : i.destCell = some m)
    (r : Int) : EveryNext (s.FollowsRule P i) (resultToMem P m r t) :=
  memWrite_everyNext (FollowsRule.raised t) fun _ =>
    ((h.setCell (.inl (congrArg (Option.map Int.toNat) hm)) r).setFlags hi r).finish hjump hpc

end FallsThrough

end State.ChangedBy

/-! ### The instructions -/

namespace State.FollowsRule

open State.ChangedBy

/-- With a nonzero multiplier the scratch cell is written before the destination (R143). -/
theorem imulRegMem (P : Params) (reg addr : Int) (s : State) :
    EveryNext (s.FollowsRule P (.imulRegMem reg addr)) (imulRegMemWith P reg addr s) := by
  refine formRM_everyNextAt (raised s) fun a _ => memRead_everyNext (raised _) ?_
  split
  · exact (consumed _).resultToMem rfl rfl rfl rfl _
  · next hne =>
    refine attempt_everyNext (raised _) fun sc hsc => memWrite_everyNext (raised _) fun _ => ?_
    have hcell : (Instr.imulRegMem reg addr).NamesCell P s sc :=
      .inr ⟨⟨reg, addr, rfl, hne⟩, scratchCell_of_scratch (s := s.setPc (s.pc + 2)) hsc⟩
    exact ((consumed _).setCell hcell _).resultToMem rfl rfl rfl rfl _

/-- Every instruction; what its rule names, its format's `k` and whether it is a jump are each read off its row by
`rfl`. -/
theorem execWith (P : Params) (i : Instr) (s : State) : EveryNext (s.FollowsRule P i) (execWith P i s) := by
  cases i with
  | addRegReg | subRegReg | imulRegReg =>
    refine formRR_everyNextAt (raised s) ?_
    rintro a _ rfl _
    exact (consumed _).resultToReg rfl rfl rfl rfl _
  | addMemReg | subMemReg | imulMemReg =>
    refine formPlainReg_everyNextAt (raised s) ?_
    rintro b rfl
    refine memRead_everyNext (raised _) ?_
    exact (consumed _).resultToReg rfl rfl rfl rfl _
  | addRegMem | subRegMem =>
    refine formRM_everyNextAt (raised s) fun _ _ => memRead_everyNext (raised _) ?_
    exact (consumed _).resultToMem rfl rfl rfl rfl _
  | imulRegMem reg addr => exact imulRegMem P reg addr s
  | addImmReg | subImmReg =>
    refine formPlainReg_everyNextAt (raised s) ?_
    rintro b rfl
    exact (consumed _).resultToReg rfl rfl rfl rfl _
  | incReg =>
    refine formR_everyNextAt (raised s) ?_
    rintro a rfl
    exact (consumed _).resultToReg rfl rfl rfl rfl _
  | moveRegReg =>
    refine formRR_everyNextAt (raised s) ?_
    rintro _ b _ rfl
    exact (consumed _).finish_setX rfl rfl rfl _
  | moveMemReg =>
    refine formPlainReg_everyNextAt (raised s) ?_
    rintro b rfl
    refine memRead_everyNext (raised _) ?_
    exact (consumed _).finish_setX rfl rfl rfl _
  | moveRegMem => exact formRM_everyNextAt (raised s) fun _ _ => (consumed _).storeCell rfl rfl rfl _
  | moveImmReg =>
    refine formPlainReg_everyNextAt (raised s) ?_
    rintro b rfl
    exact (consumed _).finish_setX rfl rfl rfl _
  | jmp => exact formPlain_everyNextAt (raised s) ((consumed _).branch (taken := true) rfl rfl)
  | jz | jn | jnz => exact formPlain_everyNextAt (raised s) ((consumed _).branch rfl rfl)
  | jeq | jgt | jlw =>
    refine formRRT_everyNextAt (raised s) ?_
    rintro a b rfl rfl
    exact (consumed _).branch (if_congr decide_eq_true_iff rfl rfl).symm rfl
  | ldi =>
    rw [Machine.execWith, ldiWith]
    exact formPlain_everyNextAt (raised s) ((consumed _).finish_setX rfl rfl rfl _)
  | read =>
    rw [Machine.execWith, readWith]
    exact formPlain_everyNextAt (raised s) <| memRead_everyNext (raised _) <|
      (consumed _).finish_setX rfl rfl rfl _
  | store =>
    rw [Machine.execWith, storeWith]
    exact formPlain_everyNextAt (raised s) ((consumed _).storeCell rfl rfl rfl _)

/-- On this hardware. -/
theorem of_exec {i : Instr} {s t : State} (h : exec i s = .next t) : s.FollowsRule Config.hardware i t :=
  execWith Config.hardware i s t ((execWith_hardware i s).trans h)

end State.FollowsRule

/-- Settles O37: every update an instruction makes before it completes is of a destination its rule names. -/
theorem frameRule : Obligations.FrameRule := by
  intro i s t hexec hctl
  obtain ⟨⟨hregs, hcells, hflags⟩, -⟩ := State.FollowsRule.of_exec hexec hctl
  refine ⟨hregs, fun a hdest hscratch => hcells a ?_, hflags⟩
  rintro (hnamed | ⟨himul, hsc⟩)
  · exact hdest hnamed
  · exact hscratch himul hsc

/-- Settles O36: an instruction ends by `finish()` from its last operand cell, or by a jump that is taken. -/
theorem pcLaw : Obligations.PcLaw := by
  intro i s t hexec hctl
  obtain ⟨-, hpc⟩ := State.FollowsRule.of_exec hexec hctl
  rw [hpc, Instr.nextPc]
  cases i.takenTarget s <;> rfl

end Sys2Proof.Machine
end

section
/-! PROOFS. FETCH and the step from each control state (40_datapath_and_cycle.md R97, R98, R110), and the fault at the FETCH
after a jump outside memory (45_jumps.md R172). -/

namespace Sys2Proof.Machine

/-- Settles O6: FETCH leaves `s.fetched` or `s.fetchFaulted`. -/
theorem fetchLoadsTheOpcode : Obligations.FetchLoadsTheOpcode := by
  intro P s
  refine ⟨fun h => ?_, fun h => ?_, fun t ht => ?_⟩
  · exact ⟨s.fetched, fetchOpcode_ok h, rfl, rfl, rfl, fun _ => rfl, fun _ => rfl, rfl⟩
  · exact ⟨s.fetchFaulted, fetchOpcode_error h, rfl, rfl, rfl, fun _ => rfl, fun _ => rfl, rfl⟩
  · rw [fetchOpcode, ht]

/-- Settles O7, from the step at any parameters (O8). -/
theorem stepRunsTheDecodedInstruction : Obligations.StepRunsTheDecodedInstruction := by
  intro s i rest hctl hpc hdec
  obtain ⟨hrun, hexec, hstep, -⟩ := stepAtAnyParametersRunsTheDecodedInstruction
  obtain ⟨t, hfetch, hrest⟩ := hrun Config.hardware s i rest hctl hpc hdec
  rw [hstep, hexec] at hrest
  exact ⟨t, hfetch, hrest⟩

/-- From FETCH with `pc` outside memory, a step goes no further than FETCH (R98, R110). -/
theorem step_of_fetch_outside {s : State} (hctl : s.ctl = .fetch) (hpc : ¬ inMemory Config.hardware s.pc) :
    step s = .next s.fetchFaulted := by
  rw [step, cycle, hctl, fetchOpcode_error hpc]

/-- Settles O9. -/
theorem fetchOutsideMemoryAborts : Obligations.FetchOutsideMemoryAborts := fun _ hctl hpc =>
  ⟨_, step_of_fetch_outside hctl hpc, rfl, rfl, rfl, fun _ => rfl, fun _ => rfl, rfl⟩

/-- Settles O11. -/
theorem terminalStatesHaveNoStep : Obligations.TerminalStatesHaveNoStep :=
  fun _ => ⟨fun hctl => by rw [step, cycle, hctl], fun _ hctl => by rw [step, cycle, hctl]⟩

/-- Settles O12, from the ways any instruction can end. -/
theorem everyInstructionGoesToFetchOrFaulted : Obligations.EveryInstructionGoesToFetchOrFaulted := by
  intro i s
  rw [← execWith_hardware]
  exact execWith_fetchOrFaulted Config.hardware i s

/-- A jump that is taken raises nothing once its operand cells are consumed: its target is not checked (R172). -/
theorem takenJump_completes {i : Instr} {s : State} {target : Int} (htaken : i.takenTarget s = some target)
    (P : Params) : OnceConsumed P s i.kindedOperands (fun r => ∃ t, r = .next t ∧ t.ctl = .fetch) (execWith P i s) := by
  cases i with
  | jmp => exact formPlain_onceConsumed rfl fun _ => ⟨_, rfl, rfl⟩
  | jz | jn | jnz => exact formPlain_onceConsumed rfl fun _ => ⟨_, branch_eq .., rfl⟩
  | jeq | jgt | jlw => exact formRRT_onceConsumed fun _ _ _ => ⟨_, branch_eq .., rfl⟩
  | _ => cases htaken

/-- Settles O35: the jump completes with `pc` the target by the PC law, and FETCH faults there. -/
theorem jumpOutsideMemoryFaultsAtTheNextFetch : Obligations.JumpOutsideMemoryFaultsAtTheNextFetch := by
  intro i s target hconsumed htaken hout
  obtain ⟨t, hexec, hctl⟩ := takenJump_completes htaken Config.hardware hconsumed
  rw [execWith_hardware] at hexec
  obtain ⟨-, hpc⟩ := State.FollowsRule.of_exec hexec hctl
  rw [Instr.nextPc, htaken, Option.getD_some] at hpc
  subst hpc
  exact ⟨t, hexec, hctl, rfl, t.fetchFaulted, step_of_fetch_outside hctl hout, rfl, rfl⟩

end Sys2Proof.Machine
end

section
/-! PROOFS. The components of the datapath (40_datapath_and_cycle.md R90-R95): what each of their operations writes, and that
it writes nothing else. -/

namespace Sys2Proof.Machine

/-- The second value put on a bus leaves no trace of the first (R90). -/
@[simp] theorem busPut_busPut (b : Bus) (v w : Int) (s : State) : busPut b w (busPut b v s) = busPut b w s := by
  cases b <;> rfl

/-- Settles O54. -/
theorem busHoldsTheLastValuePut : Obligations.BusHoldsTheLastValuePut := by
  intro b other v w s
  refine ⟨?_, busPut_busPut b v w s, fun hne => ?_⟩
  · rw [busGet_busPut, if_pos rfl]
  · rw [busGet_busPut, if_neg hne]

/-- A register holds what it was given, and giving it a value changes no other register (R92). -/
theorem wiredReg_get_set (q r : WiredReg) (v : Int) (s : State) :
    q.get (r.set v s) = if q = r then v else q.get s := by
  cases r with
  | gpr i =>
    cases q with
    | gpr j => simp [WiredReg.get, WiredReg.set]
    | pc | ir => rfl
  | pc | ir => cases q <;> rfl

/-- The registers do not change with the buses. -/
theorem wiredReg_get_busPut (q : WiredReg) (b : Bus) (v : Int) (s : State) : q.get (busPut b v s) = q.get s := by
  cases q with
  | gpr i => exact busPut_x b v s i
  | pc => exact busPut_pc b v s
  | ir => exact busPut_ir b v s

/-- Settles O55: a transfer to a bus is a `busPut`, a transfer from one a `WiredReg.set`. -/
theorem registerTransfers : Obligations.RegisterTransfers := by
  intro r s
  refine ⟨rfl, ?_, rfl, ?_, fun q => ⟨wiredReg_get_busPut .., wiredReg_get_busPut ..⟩, fun q hq => ⟨?_, ?_⟩,
    fun _ => rfl, rfl, rfl, rfl, rfl, rfl, fun bit other v => ⟨?_, fun hne => ?_⟩⟩
  · rw [regStore, wiredReg_get_set, if_pos rfl]
  · rw [regInternalStore, wiredReg_get_set, if_pos rfl]
  · rw [regStore, wiredReg_get_set, if_neg hq]
  · rw [regInternalStore, wiredReg_get_set, if_neg hq]
  · rw [getBit_setBit, if_pos rfl]
  · rw [getBit_setBit, if_neg hne]

/-- `memRead()` of a cell (R95). -/
theorem busMemRead_ok {P : Params} {s : State} (h : inMemory P (busGet s .ext)) :
    busMemRead P s = .ok (busPut .ext (s.cell (busGet s .ext).toNat) s) := by
  rw [busMemRead, memRead_ok h]

/-- `memRead()` outside memory (R95). -/
theorem busMemRead_error {P : Params} {s : State} (h : ¬ inMemory P (busGet s .ext)) :
    busMemRead P s = .error (.outOfBounds (busGet s .ext)) := by
  rw [busMemRead, memRead_error h]

/-- Settles O56: phase 2 of `memStore()` writes at the address that phase 1 took from the bus. -/
theorem memoryBusInterface : Obligations.MemoryBusInterface := by
  intro P a v s
  refine ⟨fun h => ⟨?_, _, memWrite_ok (a := a) (v := v) h, ?_, fun b hb => ?_, fun _ => rfl⟩,
    fun h => ⟨busMemRead_error h, memWrite_error (a := a) (v := v) h⟩⟩
  · exact (busMemRead_ok (s := busPut .ext a s) h).trans (congrArg _ (busPut_busPut ..))
  · rw [State.setCell_cell, if_pos rfl]
  · rw [State.setCell_cell, if_neg (List.ne_of_not_mem_cons hb)]
    rfl

/-- Settles O57: every operation of the ALU is an `aluSet` of the slot it names. -/
theorem aluOperations : Obligations.AluOperations := by
  intro P slot port s
  have hset : ∀ v, aluGet (aluSet slot v s) slot = v := fun v => by rw [aluGet_aluSet, if_pos rfl]
  have hother : ∀ v other, other ≠ slot → aluGet (aluSet slot v s) other = aluGet s other :=
    fun v other hne => by rw [aluGet_aluSet, if_neg hne]
  refine ⟨hset _, ?_, rfl, rfl, rfl, rfl, hset _, fun other hne => ⟨hother _ _ hne, hother _ _ hne⟩,
    aluSet_flags .., aluSet_flags .., aluSet_flags .., rfl, rfl⟩
  rw [aluUnload, busGet_busPut, if_pos rfl]

end Sys2Proof.Machine
end

section
/-! PROOFS. The microprograms of `addRegReg`, `read` and `store` (40_datapath_and_cycle.md R105) simulate their net effects:
the machine at bus level and the meaning stand at states that agree in `pc` and in what a program can see, and one lemma for
each part of a microprogram leads from such a pair to the next, or to the same condition. -/

namespace Sys2Proof.Machine

/-! ### What each part of a microprogram leaves at bus level -/

/-- What the `pc` advance leaves, through this ALU slot and internal bus B. -/
def State.advanced (slot : AluSlot) (u : State) : State :=
  (aluSet slot (u.pc + 1) (busPut .intB (u.pc + 1) u)).setPc (u.pc + 1)

theorem runMicro_microAdvance_eq (slot : AluSlot) (u : State) :
    runMicro Config.hardware (microAdvance slot) u = .ok (u.advanced slot) := by
  cases slot <;> rfl

/-- What `fetchOperand()` of a cell in memory leaves: the operand stands on the external bus (R101). -/
def State.withOperand (slot : AluSlot) (u : State) : State :=
  busPut .ext (u.cell (u.pc + 1).toNat) (u.advanced slot)

theorem State.withOperand_ext (slot : AluSlot) (u : State) :
    (u.withOperand slot).hid.ext = u.cell (u.pc + 1).toNat := rfl

/-- Its `memRead()` overwrites the address, which the `read(PC)` before it left there. -/
theorem State.busPut_advanced (slot : AluSlot) (u : State) :
    busPut .ext ((busPut .ext (u.pc + 1) (u.advanced slot)).cell (u.pc + 1).toNat)
      (busPut .ext (u.pc + 1) (u.advanced slot)) = u.withOperand slot := by
  cases slot <;> rfl

/-- `fetchOperand()` at bus level up to its `memRead()` (R101). -/
theorem runMicro_microFetchOperand_append (slot : AluSlot) (ops : List MicroOp) (u : State) :
    runMicro Config.hardware (microFetchOperand slot ++ ops) u =
      runMicro Config.hardware (.memRead :: ops) (busPut .ext (u.pc + 1) (u.advanced slot)) := by
  rw [microFetchOperand, List.append_assoc, runMicro_append, runMicro_microAdvance_eq]
  rfl

/-- A valid id on the external bus is placed on the select line (R93). -/
theorem microStep_select {P : Params} {u : State} {r : Reg P} (hext : u.hid.ext = r.id) :
    microStep P .select u = .ok (busPut .sel r.id u) := by
  have hget : busGet u .ext = r.id := hext
  rw [microStep, selectRegister, hget, checkReg_id]

/-- A transfer with the selected register (R93). -/
theorem onSelected_of_sel {P : Params} {u : State} {r : Reg P} (hsel : u.hid.sel = r.id)
    (f : WiredReg → State → State) : onSelected P f u = .ok (f (.gpr r) u) := by
  have hget : busGet u .sel = r.id := hsel
  rw [onSelected, selected, hget, checkReg_id]

/-! ### The simulation -/

/-- The state `u` at bus level has the `pc`, memory, registers and flags of the state `s` of a meaning. -/
structure State.Simulates (u s : State) : Prop where
  pc : u.pc = s.pc
  mem : u.mem = s.mem
  gpr : u.gpr = s.gpr
  flags : u.flags = s.flags

namespace State.Simulates

theorem refl (s : State) : s.Simulates s := ⟨rfl, rfl, rfl, rfl⟩

variable {s u : State} (h : u.Simulates s)
include h

theorem cell_eq (a : Nat) : u.cell a = s.cell a := congrArg (Cells.read · a) h.mem

theorem x_eq (i : Nat) : u.x i = s.x i := congrArg (Cells.read · i) h.gpr

theorem busPut (b : Bus) (v : Int) : (busPut b v u).Simulates s :=
  ⟨(busPut_pc ..).trans h.pc, (busPut_mem ..).trans h.mem, (busPut_gpr ..).trans h.gpr, (busPut_flags ..).trans h.flags⟩

theorem aluSet (slot : AluSlot) (v : Int) : (aluSet slot v u).Simulates s :=
  ⟨(aluSet_pc ..).trans h.pc, (aluSet_mem ..).trans h.mem, (aluSet_gpr ..).trans h.gpr, (aluSet_flags ..).trans h.flags⟩

theorem memStoreAddress : (memStoreAddress u).Simulates s := ⟨h.pc, h.mem, h.gpr, h.flags⟩

theorem storeIr : (regStore .ir u).Simulates s := ⟨h.pc, h.mem, h.gpr, h.flags⟩

theorem setX (r : Nat) (v : Int) : (u.setX r v).Simulates (s.setX r v) :=
  ⟨h.pc, h.mem, congrArg (Cells.write · r v) h.gpr, h.flags⟩

theorem setCell (a : Nat) (v : Int) : (u.setCell a v).Simulates (s.setCell a v) :=
  ⟨h.pc, congrArg (Cells.write · a v) h.mem, h.gpr, h.flags⟩

theorem setFlags (r : Int) : (u.setFlags r).Simulates (s.setFlags r) := ⟨h.pc, h.mem, h.gpr, rfl⟩

theorem setPc (pc : Int) : (u.setPc pc).Simulates (s.setPc pc) := ⟨rfl, h.mem, h.gpr, h.flags⟩

theorem advanced (slot : AluSlot) : (u.advanced slot).Simulates (s.setPc (s.pc + 1)) := by
  rw [State.advanced, h.pc]
  exact ((h.busPut _ _).aluSet _ _).setPc _

theorem withOperand (slot : AluSlot) : (u.withOperand slot).Simulates (s.setPc (s.pc + 1)) :=
  (h.advanced slot).busPut _ _

variable {ops : List MicroOp}

/-- A condition raised at bus level is the one the meaning raises, with no rollback (R195). -/
theorem raises (c : Condition) : ReachesNetEffect (.error (c, u)) (.next (s.raised Config.hardware c)) :=
  .inr ⟨c, u, _, rfl, rfl, rfl, h.mem.symm, h.gpr.symm, h.flags.symm⟩

/-- The `pc` advance at the end of a microprogram is `finish()` (R102). -/
theorem microAdvance_reaches (slot : AluSlot) :
    ReachesNetEffect (runMicro Config.hardware (microAdvance slot) u) (finish Config.hardware s) := by
  obtain ⟨hpc, hmem, hgpr, hflags⟩ := h.advanced slot
  exact .inl ⟨_, _, runMicro_microAdvance_eq slot u, finish_eq .., rfl, hpc.symm, hmem.symm, hgpr.symm, hflags.symm⟩

/-- `memRead()` is a `MemRead` of the address on the external bus (R95). -/
theorem memRead_reaches {go : Int → Result}
    (hgo : ReachesNetEffect (runMicro Config.hardware ops (Machine.busPut .ext (u.cell u.hid.ext.toNat) u))
      (go (u.cell u.hid.ext.toNat))) :
    ReachesNetEffect (runMicro Config.hardware (.memRead :: ops) u)
      (attempt Config.hardware s (memRead Config.hardware u.hid.ext s) go) := by
  rcases microStep_memRead_cases Config.hardware u with ⟨hin, e⟩ | ⟨hout, e⟩
  · rw [runMicro_cons_ok e, memRead_ok hin, attempt_ok, ← h.cell_eq]
    exact hgo
  · rw [runMicro_cons_error e, memRead_error hout, attempt_error]
    exact h.raises _

/-- `fetchOperand()` at bus level is that of the meaning (R101). -/
theorem microFetchOperand_reaches {slot : AluSlot} {go : State → Result}
    (hgo : (u.withOperand slot).Simulates (s.setPc (s.pc + 1)) →
      ReachesNetEffect (runMicro Config.hardware ops (u.withOperand slot)) (go (s.setPc (s.pc + 1)))) :
    ReachesNetEffect (runMicro Config.hardware (microFetchOperand slot ++ ops) u) (fetchOperand Config.hardware s go) := by
  have hnet : fetchOperand Config.hardware s go = attempt Config.hardware (s.setPc (s.pc + 1))
      (memRead Config.hardware (u.pc + 1) (s.setPc (s.pc + 1))) fun _ => go (s.setPc (s.pc + 1)) := by
    rw [h.pc]
    rfl
  rw [runMicro_microFetchOperand_append, hnet]
  refine ((h.advanced slot).busPut .ext (u.pc + 1)).memRead_reaches ?_
  have hoperand := hgo (h.withOperand slot)
  rwa [← State.busPut_advanced] at hoperand

/-- Phase 2 of `memStore()` is a `MemWrite` of the datum on the external bus at the pending address (R95). -/
theorem memStoreData_reaches {go : State → Result}
    (hgo : ∀ a, ReachesNetEffect (runMicro Config.hardware ops (u.setCell a u.hid.ext)) (go (s.setCell a u.hid.ext))) :
    ReachesNetEffect (runMicro Config.hardware (.memStoreData :: ops) u)
      (attempt Config.hardware s (memWrite Config.hardware u.hid.pending u.hid.ext s) go) := by
  have hop : microStep Config.hardware .memStoreData u = memWrite Config.hardware u.hid.pending u.hid.ext u := rfl
  by_cases hin : inMemory Config.hardware u.hid.pending
  · rw [runMicro_cons_ok (hop.trans (memWrite_ok hin)), memWrite_ok hin, attempt_ok]
    exact hgo _
  · rw [runMicro_cons_error (hop.trans (memWrite_error hin)), memWrite_error hin, attempt_error]
    exact h.raises _

/-- Placing a register id on the select line is `checkReg` of it (R24, R93). -/
theorem select_reaches {go : Reg Config.hardware → Result}
    (hgo : ∀ r : Reg Config.hardware, u.hid.ext = r.id →
      ReachesNetEffect (runMicro Config.hardware ops (Machine.busPut .sel r.id u)) (go r)) :
    ReachesNetEffect (runMicro Config.hardware (.select :: ops) u)
      (attempt Config.hardware s (checkReg Config.hardware u.hid.ext) go) := by
  rcases checkReg_cases Config.hardware u.hid.ext with ⟨r, hr, e⟩ | ⟨-, e⟩
  · rw [runMicro_cons_ok (microStep_select hr), e, attempt_ok]
    exact hgo r hr
  · have hop : microStep Config.hardware .select u = .error (.invalidRegister u.hid.ext) := by
      rw [microStep, selectRegister, show busGet u .ext = u.hid.ext from rfl, e]
    rw [runMicro_cons_error hop, e, attempt_error]
    exact h.raises _

end State.Simulates

/-! ### The three microprograms -/

/-- `microRead` reaches the net effect of `read` (R181). -/
theorem microRead_reaches (s : State) :
    ReachesNetEffect (runMicro Config.hardware microRead s) (exec (.read (s.cell (s.pc + 1).toNat)) s) := by
  have hparts : microRead =
    microFetchOperand .slot0 ++ (.memRead :: .store (.gpr defaultReg) :: microAdvance .slot0) := rfl
  rw [hparts, exec, execRead, readWith, formPlain]
  refine (State.Simulates.refl s).microFetchOperand_reaches fun hu => hu.memRead_reaches ?_
  exact ((hu.busPut .ext _).setX defaultReg _).microAdvance_reaches .slot0

/-- `microStore` reaches the net effect of `store` (R182). -/
theorem microStore_reaches (s : State) :
    ReachesNetEffect (runMicro Config.hardware microStore s) (exec (.store (s.cell (s.pc + 1).toNat)) s) := by
  have hparts : microStore = microFetchOperand .slot0 ++
    (.memStoreAddress :: .read (.gpr defaultReg) :: .memStoreData :: microAdvance .slot0) := rfl
  rw [hparts, exec, execStore, storeWith, formPlain]
  refine (State.Simulates.refl s).microFetchOperand_reaches fun hu => ?_
  exact (hu.memStoreAddress.busPut .ext _).memStoreData_reaches fun a =>
    ((hu.memStoreAddress.busPut .ext _).setCell a _).microAdvance_reaches .slot0

/-- What selecting a register, `internalRead` of it and loading an ALU slot from internal bus A leave. -/
def State.loaded (slot : AluSlot) (r : Int) (v : Int) (u : State) : State :=
  aluSet slot v (busPut .intA v (busPut .sel r u))

theorem State.Simulates.loaded {s u : State} (h : u.Simulates s) (slot : AluSlot) (r v : Int) :
    (u.loaded slot r v).Simulates s :=
  ((h.busPut _ _).busPut _ _).aluSet _ _

/-- A register operand at bus level: the register is checked and its value loaded into an ALU slot. -/
theorem State.Simulates.load_reaches {s u : State} (h : u.Simulates s) {slot : AluSlot} {ops : List MicroOp} {id : Int}
    (hext : u.hid.ext = id) {go : Reg Config.hardware → Result}
    (hgo : ∀ r : Reg Config.hardware, id = r.id →
      ReachesNetEffect (runMicro Config.hardware ops (u.loaded slot r.id (s.x r))) (go r)) :
    ReachesNetEffect (runMicro Config.hardware (.select :: .internalReadSelected :: .aluLoad slot .a :: ops) u)
      (attempt Config.hardware s (checkReg Config.hardware id) go) := by
  subst hext
  refine h.select_reaches fun r hr => ?_
  have hload := hgo r hr
  rw [← h.x_eq] at hload
  rwa [runMicro_cons_ok (op := .internalReadSelected) (onSelected_of_sel rfl _), runMicro_cons_ok rfl]

/-- The last part of `microAddRegReg`, from the sum on. -/
def microSum : List MicroOp :=
  [.aluAdd, .aluUnload .slot1 .a, .read .ir, .select, .internalStoreSelected, .setFlags .intA] ++ microAdvance .slot0

/-- The second part of `microAddRegReg`, from its second operand cell on. -/
def microAddSecond : List MicroOp :=
  microFetchOperand .slot1 ++ (.select :: .internalReadSelected :: .aluLoad .slot1 .a :: microSum)

/-- With both sources in the ALU's slots and the id of the destination in `ir`, the sum goes to the destination and sets
the flags (R94, R120). -/
theorem State.Simulates.sum_reaches {s u : State} (h : u.Simulates s) {a : Reg Config.hardware} (hir : u.ir = a.id)
    {x y : Int} (hx : u.hid.slot0 = x) (hy : u.hid.slot1 = y) :
    ReachesNetEffect (runMicro Config.hardware microSum u)
      (resultToReg Config.hardware a (wrap Config.hardware.width (x + y)) s) := by
  subst hx hy
  simp only [microSum, List.cons_append, List.nil_append]
  rw [runMicro_cons_ok (op := .aluAdd) rfl, runMicro_cons_ok (op := .aluUnload ..) rfl,
    runMicro_cons_ok (op := .read .ir) rfl, runMicro_cons_ok (microStep_select hir),
    runMicro_cons_ok (op := .internalStoreSelected) (onSelected_of_sel rfl _),
    runMicro_cons_ok (op := .setFlags .intA) rfl]
  exact ((((((h.aluSet _ _).busPut _ _).busPut _ _).busPut _ _).setX a _).setFlags _).microAdvance_reaches .slot0

/-- The second operand is fetched and added: the first source stands in slot 0 and the id of its register in `ir`. -/
theorem State.Simulates.addSecond_reaches {s u : State} (h : u.Simulates s) {a : Reg Config.hardware}
    (hir : u.ir = a.id) (hx : u.hid.slot0 = s.x a) :
    ReachesNetEffect (runMicro Config.hardware microAddSecond u)
      (fetchRegister Config.hardware (s.cell (s.pc + 1).toNat) s fun b s =>
        resultToReg Config.hardware a (wrap Config.hardware.width (s.x a + s.x b)) s) := by
  have hext : (u.withOperand .slot1).hid.ext = s.cell (s.pc + 1).toNat := by
    rw [State.withOperand_ext, h.pc, h.cell_eq]
  refine h.microFetchOperand_reaches fun hv => hv.load_reaches hext fun b _ => ?_
  exact (hv.loaded .slot1 b.id _).sum_reaches hir hx rfl

/-- `microAddRegReg` reaches the net effect of `addRegReg` (R120). -/
theorem microAddRegReg_reaches (s : State) :
    ReachesNetEffect (runMicro Config.hardware microAddRegReg s)
      (exec (.addRegReg (s.cell (s.pc + 1).toNat) (s.cell (s.pc + 2).toNat)) s) := by
  have hparts : microAddRegReg = microFetchOperand .slot0 ++
    (.store .ir :: .select :: .internalReadSelected :: .aluLoad .slot0 .a :: microAddSecond) := rfl
  rw [hparts, ← pc_add_one_one, exec, execAddRegReg, addRegRegWith, formRR]
  refine (State.Simulates.refl s).microFetchOperand_reaches fun hu => ?_
  rw [runMicro_cons_ok rfl]
  refine hu.storeIr.load_reaches rfl fun a ha => ?_
  exact (hu.storeIr.loaded .slot0 a.id _).addSecond_reaches ha rfl

/-! ### The statements -/

section Outcomes

variable {micro : Except (Condition × State) State} {r : Result} (h : ReachesNetEffect micro r)
include h

theorem ReachesNetEffect.completes (t : State) (ht : micro = .ok t) :
    ∃ u, r = .next u ∧ u.ctl = .fetch ∧ u.mem = t.mem ∧ u.gpr = t.gpr ∧ u.flags = t.flags ∧ u.pc = t.pc := by
  rcases h with ⟨t', u, hmicro, hr, hctl, hpc, hmem, hgpr, hflags⟩ | ⟨_, _, _, hmicro, -⟩
  · cases hmicro.symm.trans ht
    exact ⟨u, hr, hctl, hmem, hgpr, hflags, hpc⟩
  · cases hmicro.symm.trans ht

theorem ReachesNetEffect.raises (c : Condition) (t : State) (ht : micro = .error (c, t)) :
    ∃ u, r = .next u ∧ u.AbortedBy c ∧ u.mem = t.mem ∧ u.gpr = t.gpr ∧ u.flags = t.flags := by
  rcases h with ⟨_, _, hmicro, -⟩ | ⟨c', t', u, hmicro, hr, hctl, hmem, hgpr, hflags⟩
  · cases hmicro.symm.trans ht
  · cases hmicro.symm.trans ht
    exact ⟨u, hr, hctl, hmem, hgpr, hflags⟩

end Outcomes

/-- Settles O59. -/
theorem microAddRegRegRefinesAddRegReg : Obligations.MicroAddRegRegRefinesAddRegReg := fun s =>
  ⟨ReachesNetEffect.completes (microAddRegReg_reaches s), ReachesNetEffect.raises (microAddRegReg_reaches s)⟩

/-- Settles O60. -/
theorem microReadAndStoreRefine : Obligations.MicroReadAndStoreRefine := fun s =>
  ⟨ReachesNetEffect.completes (microRead_reaches s), ReachesNetEffect.raises (microRead_reaches s),
    ReachesNetEffect.completes (microStore_reaches s), ReachesNetEffect.raises (microStore_reaches s)⟩

end Sys2Proof.Machine
end

section
/-! PROOFS. Add and subtract on this hardware (41_add_sub.md R120-R128): each pair of instructions is the sum and the
difference in one of the operand shapes that complete at any parameters. At `WIDTH = INF` (10_state.md R3) `wrapAdd` is
the exact sum and `wrapSub` the exact difference, by `wrap_inf`, which is `rfl`. -/

namespace Sys2Proof.Machine

/-- What an instruction leaves at the parameters of this hardware is what the dispatch leaves (R99). -/
theorem completes_of_execWith {i : Instr} {s : State} {pc : Int} {Q : State → Prop}
    (h : CompletesAs (execWith Config.hardware i s) pc Q) : Completes i s pc Q := by
  rwa [execWith_hardware] at h

/-- Settles O14: the shape register and register, the first register the minuend. -/
theorem addSubRegRegCompute : Obligations.AddSubRegRegCompute := by
  intro a b s ⟨h1, h2⟩
  constructor
  · exact completes_of_execWith (regReg_completes (wrapAdd .inf) a b h1 h2)
  · exact completes_of_execWith (regReg_completes (wrapSub .inf) a b h1 h2)

/-- Settles O15: the shape memory and register, the memory cell the minuend. -/
theorem addSubMemRegCompute : Obligations.AddSubMemRegCompute := by
  intro m b s ⟨h1, h2⟩ hm
  constructor
  · exact completes_of_execWith (memReg_completes (wrapAdd .inf) b h1 h2 hm)
  · exact completes_of_execWith (memReg_completes (wrapSub .inf) b h1 h2 hm)

/-- Settles O16: the shape register and memory, the register the minuend. -/
theorem addSubRegMemCompute : Obligations.AddSubRegMemCompute := by
  intro a m s ⟨h1, h2⟩ hm
  constructor
  · exact completes_of_execWith (regMem_completes (wrapAdd .inf) a h1 h2 hm)
  · exact completes_of_execWith (regMem_completes (wrapSub .inf) a h1 h2 hm)

/-- Settles O17: the shape immediate and register, the immediate the minuend. -/
theorem addSubImmRegCompute : Obligations.AddSubImmRegCompute := by
  intro imm b s ⟨h1, h2⟩
  constructor
  · exact completes_of_execWith (immReg_completes (wrapAdd .inf) b imm h1 h2)
  · exact completes_of_execWith (immReg_completes (wrapSub .inf) b imm h1 h2)

end Sys2Proof.Machine
end

section
/-! PROOFS. Multiply (42_imul.md R140-R144): the repeated-addition loop gives the wrapped product at every legal width,
and the three multiplies on this hardware, where `mul` is the exact product (10_state.md R3), by `mul_inf`. -/

namespace Sys2Proof.Machine

/-- A sum may be wrapped after each addition or only at the end (R3). -/
theorem wrap_wrap_add (width : Width) (u x : Int) : wrap width (wrap width u + x) = wrap width (u + x) := by
  cases width with
  | inf => rfl
  | bits w =>
    have hsum (v : Int) : wrap (.bits w) (v + x) = (v + 2 ^ (w - 1) + x) % 2 ^ w - 2 ^ (w - 1) := by
      rw [wrap, add_right_comm]
    rw [hsum, hsum, wrap, sub_add_cancel, Int.emod_add_emod]

/-- Subtracting the multiplicand is adding its negation. -/
theorem subTimes_eq_addTimes_neg (width : Width) (x : Int) (k : Nat) (acc : Int) :
    subTimes width x k acc = addTimes width (-x) k acc := by
  induction k generalizing acc with
  | zero => rfl
  | succ k ih => rw [subTimes, addTimes, ih, sub_eq_add_neg]

/-- From a value of the width, `k` wrapped additions of `x` give the wrapped sum. -/
theorem addTimes_wrap (width : Width) (x : Int) (k : Nat) (acc : Int) :
    addTimes width x k (wrap width acc) = wrap width (acc + k * x) := by
  induction k generalizing acc with
  | zero => simp [addTimes]
  | succ k ih =>
    rw [addTimes, wrap_wrap_add, ih]
    congr 1
    push_cast
    ring

theorem addTimes_of_holds {width : Width} (hw : width.legal) {acc : Int} (hacc : width.holds acc = true) (x : Int)
    (k : Nat) : addTimes width x k acc = wrap width (acc + k * x) := by
  rw [← addTimes_wrap, wrap_of_holds hw hacc]

/-- Settles O24: the loop of a positive multiplier adds to the multiplicand itself, that of a negative one subtracts
from 0, and both start at a value of the width. -/
theorem multiplyLoopIsWrappedProduct : Obligations.MultiplyLoopIsWrappedProduct := by
  intro width x n hw hx
  have h0 := holds_zero hw
  rw [mulLoop, mul]
  split_ifs with hzero hpos
  · rw [hzero, mul_zero, wrap_of_holds hw h0]
  · have hcount : ((n - 1).toNat : Int) = n - 1 := Int.toNat_of_nonneg (by omega)
    rw [addTimes_of_holds hw hx, hcount]
    congr 1
    ring
  · have hcount : ((-n).toNat : Int) = -n := Int.toNat_of_nonneg (by omega)
    rw [subTimes_eq_addTimes_neg, addTimes_of_holds hw h0, hcount]
    congr 1
    ring

/-- Settles O20: the product in the shapes register and register, and memory and register. -/
theorem imulToRegisterComputes : Obligations.ImulToRegisterComputes := by
  intro a b m s ⟨h1, h2⟩
  refine ⟨?_, fun hm => ?_⟩
  · exact completes_of_execWith (regReg_completes (mul .inf) a b h1 h2)
  · exact completes_of_execWith (memReg_completes (mul .inf) b h1 h2 hm)

/-- Settles O21: `imulRegMem` at this hardware's parameters, whose `IMUL_SCRATCH_FINAL` is `product` (R2). -/
theorem imulRegMemComputes : Obligations.ImulRegMemComputes := by
  intro a m s ⟨h1, h2⟩ hm
  refine ⟨fun h0 => ?_, fun hne sc hsc => ?_⟩
  · exact completes_of_execWith (imulRegMemWith_completes_of_zero a h1 h2 hm h0)
  · exact completes_of_execWith (imulRegMemWith_completes a h1 h2 hm hne hsc)

end Sys2Proof.Machine
end

section
/-! PROOFS. The moves (43_move.md R150-R153): a value goes to a register or to a memory cell as it stands, with no `wrap`
and no `setFlags` (10_state.md R31), for any parameters and then on this hardware. -/

namespace Sys2Proof.Machine

/-- A value was copied to a register: it stands there, and nothing else changed, the flags included. -/
abbrev State.GotRegCopy (s : State) (dest : Nat) (v : Int) (t : State) : Prop :=
  t.x dest = v ∧ s.SameRegsBut dest t ∧ s.SameCells t ∧ t.flags = s.flags

/-- A value was copied to a memory cell: it stands there, and nothing else changed, the flags included. -/
abbrev State.GotCellCopy (s : State) (dest : Nat) (v : Int) (t : State) : Prop :=
  t.cell dest = v ∧ s.SameRegs t ∧ s.SameCellsBut [dest] t ∧ t.flags = s.flags

/-! ### The two ways a copy ends -/

theorem finish_setX_completes (P : Params) (dest : Nat) (v : Int) (s : State) :
    CompletesAs (finish P (s.setX dest v)) (s.pc + 1) (s.GotRegCopy dest v) := by
  refine ⟨_, finish_eq P _, rfl, rfl, ?_, ?_, fun _ => rfl, rfl⟩
  · simp
  · intro i hi
    simp [hi]

theorem storeCell_completes {P : Params} {dest : Int} (v : Int) {s : State} (h : inMemory P dest) :
    CompletesAs (attempt P s (memWrite P dest v s) fun s => finish P s) (s.pc + 1)
      (s.GotCellCopy dest.toNat v) := by
  rw [memWrite_ok h, attempt_ok]
  refine ⟨_, finish_eq P _, rfl, rfl, ?_, fun _ => rfl, ?_, rfl⟩
  · simp
  · intro a ha
    rw [List.mem_singleton] at ha
    simp [ha]

/-! ### The moves for any parameters: the copy starts from the state whose two operand cells are consumed -/

section Moves

variable {P : Params} {s : State} (a b : Reg P) {m : Int}

theorem moveRegRegWith_completes (h1 : inMemory P (s.pc + 1)) (h2 : inMemory P (s.pc + 2)) :
    CompletesAs (moveRegRegWith P a.id b.id s) (s.pc + 3) (s.GotRegCopy b (s.x a)) := by
  rw [moveRegRegWith, formRR_go a b h1 h2, ← pc_add_two_one]
  exact finish_setX_completes P b _ (s.setPc (s.pc + 2))

theorem moveMemRegWith_completes (h1 : inMemory P (s.pc + 1)) (h2 : inMemory P (s.pc + 2)) (hm : inMemory P m) :
    CompletesAs (moveMemRegWith P m b.id s) (s.pc + 3) (s.GotRegCopy b (s.cell m.toNat)) := by
  rw [moveMemRegWith, formPlainReg_go b h1 h2, memRead_ok hm, attempt_ok, ← pc_add_two_one]
  exact finish_setX_completes P b _ (s.setPc (s.pc + 2))

theorem moveRegMemWith_completes (h1 : inMemory P (s.pc + 1)) (h2 : inMemory P (s.pc + 2)) (hm : inMemory P m) :
    CompletesAs (moveRegMemWith P a.id m s) (s.pc + 3) (s.GotCellCopy m.toNat (s.x a)) := by
  rw [moveRegMemWith, formRM_go a h1 h2, ← pc_add_two_one]
  exact storeCell_completes _ (s := s.setPc (s.pc + 2)) hm

theorem moveImmRegWith_completes (imm : Int) (h1 : inMemory P (s.pc + 1)) (h2 : inMemory P (s.pc + 2)) :
    CompletesAs (moveImmRegWith P imm b.id s) (s.pc + 3) (s.GotRegCopy b imm) := by
  rw [moveImmRegWith, formPlainReg_go b h1 h2, ← pc_add_two_one]
  exact finish_setX_completes P b _ (s.setPc (s.pc + 2))

end Moves

/-- Settles O26: the two moves whose source is a register or an immediate and whose destination is a register. -/
theorem moveRegRegAndImmRegCopy : Obligations.MoveRegRegAndImmRegCopy := by
  intro a b imm s ⟨h1, h2⟩
  constructor
  · exact completes_of_execWith (moveRegRegWith_completes a b h1 h2)
  · exact completes_of_execWith (moveImmRegWith_completes b imm h1 h2)

/-- Settles O27: the move from memory, whose address lies in memory, so that its read raises nothing. -/
theorem moveMemRegLoads : Obligations.MoveMemRegLoads := by
  intro m b s ⟨h1, h2⟩ hm
  exact completes_of_execWith (moveMemRegWith_completes b h1 h2 hm)

/-- Settles O28: the move to memory, whose address lies in memory, so that its write raises nothing. -/
theorem moveRegMemStores : Obligations.MoveRegMemStores := by
  intro a m s ⟨h1, h2⟩ hm
  exact completes_of_execWith (moveRegMemWith_completes a h1 h2 hm)

end Sys2Proof.Machine
end

section
/-! PROOFS. Increment on this hardware (44_inc.md R160), where the result is the exact successor (10_state.md R3), by
`wrap_inf`, which is `rfl`. -/

namespace Sys2Proof.Machine

/-- Settles O25: `incReg` at this hardware's parameters, whose one operand cell is in memory. -/
theorem incRegComputes : Obligations.IncRegComputes := by
  intro a s ⟨h1, _⟩
  exact completes_of_execWith (incRegWith_completes a h1)

end Sys2Proof.Machine
end

section
/-! PROOFS. The jumps (45_jumps.md R165-R172): once the operand cells are consumed, the one thing a jump changes is `pc`,
which goes to the target or past the last operand cell (40_datapath_and_cycle.md R102, R103). -/

namespace Sys2Proof.Machine

/-- Registers, memory and flags stand as they did: of what a program can observe, at most `pc` and `ctl` changed (R31,
R108). -/
abbrev State.KeptAllButPc (s t : State) : Prop := s.SameRegs t ∧ s.SameCells t ∧ t.flags = s.flags

/-- A branch goes to its target where the condition it tests holds, and past the cell at `pc` otherwise (R103). -/
theorem branch_completes (P : Params) {taken : Bool} {c : Prop} [Decidable c] (hc : taken = true ↔ c) (target : Int)
    (s : State) : CompletesAs (branch P taken target s) (if c then target else s.pc + 1) s.KeptAllButPc :=
  ⟨_, branch_eq P taken target s, rfl, if_congr hc rfl rfl, fun _ => rfl, fun _ => rfl, rfl⟩

/-! ### The jumps for any parameters: the branch is taken at the last operand cell -/

section Jumps

variable {P : Params} {s : State} (target : Int)

/-- `jmp` (R165). -/
theorem jmpWith_completes (h1 : inMemory P (s.pc + 1)) :
    CompletesAs (jmpWith P target s) target s.KeptAllButPc := by
  rw [jmpWith, formPlain_go h1, jumpTo_eq]
  exact ⟨_, rfl, rfl, rfl, fun _ => rfl, fun _ => rfl, rfl⟩

/-- A jump on the flag with this bit number (R29, R166-R168). -/
theorem flagJump_completes (bit : Fin 3) (h1 : inMemory P (s.pc + 1)) :
    CompletesAs (formPlain P s fun s => branch P (s.flags.getBit bit) target s)
      (if s.flags.getBit bit = true then target else s.pc + 2) s.KeptAllButPc := by
  rw [formPlain_go h1, ← pc_add_one_one]
  exact branch_completes P Iff.rfl target (s.setPc (s.pc + 1))

/-- A jump on a comparison of the first register with the second (R169-R171). -/
theorem compareJump_completes (cmp : Int → Int → Prop) [DecidableRel cmp] (a b : Reg P) (h1 : inMemory P (s.pc + 1))
    (h3 : inMemory P (s.pc + 3)) :
    CompletesAs (formRRT P a.id b.id s fun a b s => branch P (decide (cmp (s.x a) (s.x b))) target s)
      (if cmp (s.x a) (s.x b) then target else s.pc + 4) s.KeptAllButPc := by
  have h2 : inMemory P (s.pc + 2) := ⟨by omega, by omega⟩
  have hlast : s.pc + 4 = s.pc + 3 + 1 := by ring
  rw [formRRT_go a b h1 h2 h3, hlast]
  exact branch_completes P decide_eq_true_iff target (s.setPc (s.pc + 3))

end Jumps

/-- Settles O32: the one operand cell is in memory, and the target, which need not be, is not checked (R172). -/
theorem jmpLoadsPc : Obligations.JmpLoadsPc := by
  intro target s ⟨h1, _⟩
  exact completes_of_execWith (jmpWith_completes target h1)

/-- Settles O33: `jz`, `jn` and `jnz` test the flags of bit numbers 0, 1 and 2. -/
theorem flagJumpsTestTheirFlag : Obligations.FlagJumpsTestTheirFlag := by
  intro target s ⟨h1, _⟩
  refine ⟨?_, ?_, ?_⟩
  · exact completes_of_execWith (flagJump_completes target 0 h1)
  · exact completes_of_execWith (flagJump_completes target 1 h1)
  · exact completes_of_execWith (flagJump_completes target 2 h1)

/-- Settles O34: from the first register's side, `jgt` is taken when it is the less and `jlw` when it is the greater. -/
theorem compareJumpsCompareTheSecondRegister : Obligations.CompareJumpsCompareTheSecondRegister := by
  intro a b target s ⟨h1, h3⟩
  refine ⟨?_, ?_, ?_⟩
  · exact completes_of_execWith (compareJump_completes target (· = ·) a b h1 h3)
  · exact completes_of_execWith (compareJump_completes target (· < ·) a b h1 h3)
  · exact completes_of_execWith (compareJump_completes target (· > ·) a b h1 h3)

end Sys2Proof.Machine
end

section
/-! PROOFS. The loads and the store of the default register `x[0]` (46_ldi_read_store.md R180-R182): copies whose register
is fixed and whose one operand cell is an immediate or an address. -/

namespace Sys2Proof.Machine

/-! ### For any parameters: the copy starts from the state whose one operand cell is consumed -/

section DefaultRegister

variable {P : Params} {s : State} {m : Int}

theorem ldiWith_completes (imm : Int) (h1 : inMemory P (s.pc + 1)) :
    CompletesAs (ldiWith P imm s) (s.pc + 2) (s.GotRegCopy defaultReg imm) := by
  rw [ldiWith, formPlain_go h1, ← pc_add_one_one]
  exact finish_setX_completes P defaultReg _ (s.setPc (s.pc + 1))

theorem readWith_completes (h1 : inMemory P (s.pc + 1)) (hm : inMemory P m) :
    CompletesAs (readWith P m s) (s.pc + 2) (s.GotRegCopy defaultReg (s.cell m.toNat)) := by
  rw [readWith, formPlain_go h1, memRead_ok hm, attempt_ok, ← pc_add_one_one]
  exact finish_setX_completes P defaultReg _ (s.setPc (s.pc + 1))

theorem storeWith_completes (h1 : inMemory P (s.pc + 1)) (hm : inMemory P m) :
    CompletesAs (storeWith P m s) (s.pc + 2) (s.GotCellCopy m.toNat (s.x defaultReg)) := by
  rw [storeWith, formPlain_go h1, ← pc_add_one_one]
  exact storeCell_completes _ (s := s.setPc (s.pc + 1)) hm

end DefaultRegister

/-- Settles O29: `ldi` takes its operand cell as the value, and `read` as the address of the value, which is in memory. -/
theorem ldiAndReadLoadTheDefaultRegister : Obligations.LdiAndReadLoadTheDefaultRegister := by
  intro imm m s ⟨h1, _⟩
  constructor
  · exact completes_of_execWith (ldiWith_completes imm h1)
  · intro hm
    exact completes_of_execWith (readWith_completes h1 hm)

/-- Settles O30: the address lies in memory, so that the write raises nothing. -/
theorem storeWritesTheDefaultRegister : Obligations.StoreWritesTheDefaultRegister := by
  intro m s ⟨h1, _⟩ hm
  exact completes_of_execWith (storeWith_completes h1 hm)

end Sys2Proof.Machine
end

section
/-! PROOFS. The conditions an instruction can raise, and what the step that raises one leaves (60_exceptions.md R190-R195):
the first fault among its operand cells, its memory operand, or, for `imulRegMem` alone, a failed scratch search. -/

namespace Sys2Proof

/-- The instruction is an `imulRegMem` that needs a scratch cell, and there is none (R143, R144). -/
def Instr.LacksScratch (P : Params) (i : Instr) (s : Machine.State) : Prop :=
  ∃ reg addr, i = .imulRegMem reg addr ∧ s.cell addr.toNat ≠ 0 ∧ ∀ j, j < P.memSize → s.cell j ≠ 0

end Sys2Proof

namespace Sys2Proof.Machine

/-! ### The operand cells -/

/-- A refused operand cell holds a register id, outside `[0, NGPR)` (R24, R72). -/
theorem accepts_eq_false_iff {P : Params} {kind : OperandKind} {v : Int} :
    kind.accepts P v = false ↔ kind = .reg ∧ ¬ (0 ≤ v ∧ v < P.ngpr) := by
  cases kind <;> simp [OperandKind.accepts]

/-- The two conditions operand cells can raise (R191, R192). -/
theorem operandFault_cases {P : Params} {s : State} {cells : List (OperandKind × Int)} {j : Nat} {c : Condition}
    (h : operandFault P s cells j = some c) :
    (∃ a, c = .outOfBounds a) ∨
    ∃ id, c = .invalidRegister id ∧ (OperandKind.reg, id) ∈ cells ∧ ¬ (0 ≤ id ∧ id < P.ngpr) := by
  induction cells generalizing j with
  | nil => cases h
  | cons cell rest ih =>
    rw [operandFault] at h
    split at h
    · cases h
      exact .inl ⟨_, rfl⟩
    · split at h
      · next hrefused =>
        cases h
        obtain ⟨hkind, hid⟩ := accepts_eq_false_iff.1 hrefused
        exact .inr ⟨_, rfl, by rw [← hkind]; exact List.mem_cons_self, hid⟩
      · exact (ih h).imp_right fun ⟨id, hc, hmem, hid⟩ => ⟨id, hc, List.mem_cons_of_mem _ hmem, hid⟩

theorem operandFault_invalidRegister {P : Params} {s : State} {cells : List (OperandKind × Int)} {j : Nat} {id : Int}
    (h : operandFault P s cells j = some (.invalidRegister id)) :
    (OperandKind.reg, id) ∈ cells ∧ ¬ (0 ≤ id ∧ id < P.ngpr) := by
  rcases operandFault_cases h with ⟨a, hc⟩ | ⟨_, hc, hid⟩ <;> cases hc
  exact hid

/-- Operand cells that all lie in memory, one of them with an invalid register id, raise `InvalidRegister` (R192). -/
theorem operandFault_of_invalid {P : Params} {s : State} {cells : List (OperandKind × Int)} {j : Nat} {id : Int}
    (hcells : ∀ n : Nat, j ≤ n → n < j + cells.length → inMemory P (s.pc + (n : Int)))
    (hmem : (OperandKind.reg, id) ∈ cells) (hid : ¬ (0 ≤ id ∧ id < P.ngpr)) :
    ∃ id', operandFault P s cells j = some (.invalidRegister id') := by
  induction cells generalizing j with
  | nil => cases hmem
  | cons cell rest ih =>
    rw [List.length_cons] at hcells
    rw [operandFault, if_neg (not_not.2 (hcells j le_rfl (by omega)))]
    split
    · exact ⟨_, rfl⟩
    · next haccepted =>
      rcases List.mem_cons.1 hmem with rfl | hrest
      · exact absurd (accepts_eq_false_iff.2 ⟨rfl, hid⟩) haccepted
      · exact ih (fun n hn hlt => hcells n (by omega) (by omega)) hrest

/-! ### The scratch search -/

/-- The scratch search fails only where no cell holds 0 (R144). -/
theorem scratch_eq_error_iff {P : Params} {s : State} :
    scratch P s = .error .noScratchCell ↔ ∀ j, j < P.memSize → s.cell j ≠ 0 := by
  refine Iff.trans ?_ scratchBelow_none
  rw [scratch]
  split <;> simp [*]

/-- If the meaning raises `NoScratchCell`, then `p`. -/
def ScratchFaultOnlyIf (p : Prop) (r : Result) : Prop := EveryNext (fun t => t.AbortedBy .noScratchCell → p) r

section ScratchFault

variable {P : Params} {s : State} {p : Prop}

theorem finish_scratchFaultOnlyIf (s' : State) : ScratchFaultOnlyIf p (finish P s') := everyNext_next nofun

theorem branch_scratchFaultOnlyIf (taken : Bool) (target : Int) (s' : State) :
    ScratchFaultOnlyIf p (branch P taken target s') := by
  rw [branch_eq]
  exact everyNext_next nofun

theorem memRead_scratchFaultOnlyIf {a : Int} {go : Int → Result} (hgo : ScratchFaultOnlyIf p (go (s.cell a.toNat))) :
    ScratchFaultOnlyIf p (attempt P s (memRead P a s) go) := by
  rcases memRead_cases P a s with ⟨-, e⟩ | ⟨-, e⟩ <;> rw [e]
  · exact hgo
  · exact everyNext_next nofun

theorem memWrite_scratchFaultOnlyIf {a v : Int} {go : State → Result}
    (hgo : ScratchFaultOnlyIf p (go (s.setCell a.toNat v))) :
    ScratchFaultOnlyIf p (attempt P s (memWrite P a v s) go) := by
  rcases memWrite_cases P a v s with ⟨-, e⟩ | ⟨-, e⟩ <;> rw [e]
  · exact hgo
  · exact everyNext_next nofun

theorem resultToMem_scratchFaultOnlyIf (dest r : Int) : ScratchFaultOnlyIf p (resultToMem P dest r s) :=
  memWrite_scratchFaultOnlyIf (finish_scratchFaultOnlyIf _)

theorem scratch_scratchFaultOnlyIf {go : Nat → Result} (hnone : (∀ j, j < P.memSize → s.cell j ≠ 0) → p)
    (hgo : ∀ sc, ScratchFaultOnlyIf p (go sc)) : ScratchFaultOnlyIf p (attempt P s (scratch P s) go) := by
  rcases scratch_cases P s with ⟨sc, -, e⟩ | e
  · rw [e]
    exact hgo sc
  · exact fun _ _ _ => hnone (scratch_eq_error_iff.1 e)

end ScratchFault

/-- Once its operand cells are consumed, only an `imulRegMem` that lacks a scratch cell raises `NoScratchCell` (R193). -/
theorem execWith_scratchFaultOnlyIf (P : Params) (i : Instr) (s : State) :
    OnceConsumed P s i.kindedOperands (ScratchFaultOnlyIf (i.LacksScratch P s)) (execWith P i s) := by
  cases i with
  | addRegReg | subRegReg | imulRegReg | moveRegReg =>
    exact formRR_onceConsumed fun _ _ _ => finish_scratchFaultOnlyIf _
  | addMemReg | subMemReg | imulMemReg | moveMemReg =>
    exact formPlainReg_onceConsumed rfl fun _ _ => memRead_scratchFaultOnlyIf (finish_scratchFaultOnlyIf _)
  | addRegMem | subRegMem =>
    exact formRM_onceConsumed fun _ _ => memRead_scratchFaultOnlyIf (resultToMem_scratchFaultOnlyIf _ _)
  | imulRegMem reg addr =>
    refine formRM_onceConsumed fun _ pc => memRead_scratchFaultOnlyIf (s := s.setPc pc) ?_
    split
    · exact resultToMem_scratchFaultOnlyIf _ _
    · next hne =>
      exact scratch_scratchFaultOnlyIf (fun hnone => ⟨reg, addr, rfl, hne, hnone⟩) fun _ =>
        memWrite_scratchFaultOnlyIf (resultToMem_scratchFaultOnlyIf _ _)
  | moveRegMem => exact formRM_onceConsumed fun _ _ => memWrite_scratchFaultOnlyIf (finish_scratchFaultOnlyIf _)
  | addImmReg | subImmReg | moveImmReg =>
    exact formPlainReg_onceConsumed rfl fun _ _ => finish_scratchFaultOnlyIf _
  | incReg => exact formR_onceConsumed fun _ _ => finish_scratchFaultOnlyIf _
  | jmp => exact formPlain_onceConsumed rfl fun _ => everyNext_next nofun
  | jz | jn | jnz => exact formPlain_onceConsumed rfl fun _ => branch_scratchFaultOnlyIf _ _ _
  | jeq | jgt | jlw => exact formRRT_onceConsumed fun _ _ _ => branch_scratchFaultOnlyIf _ _ _
  | ldi =>
    rw [execWith, ldiWith]
    exact formPlain_onceConsumed rfl fun _ => finish_scratchFaultOnlyIf _
  | read =>
    rw [execWith, readWith]
    exact formPlain_onceConsumed rfl fun _ => memRead_scratchFaultOnlyIf (finish_scratchFaultOnlyIf _)
  | store =>
    rw [execWith, storeWith]
    exact formPlain_onceConsumed rfl fun _ => memWrite_scratchFaultOnlyIf (finish_scratchFaultOnlyIf _)

/-! ### The instruction -/

/-- The conditions an instruction can raise in this state (R191-R193). -/
inductive CanRaise (P : Params) (i : Instr) (s : State) : Condition → Prop
  | operandCell {c : Condition} (hfault : operandFault P s i.kindedOperands 1 = some c) : CanRaise P i s c
  | memOperand {m : Int} (hm : i.memOperand = some m) (hout : ¬ inMemory P m) : CanRaise P i s (.outOfBounds m)
  | scratch (hlacks : i.LacksScratch P s) : CanRaise P i s .noScratchCell

/-- Everything an instruction that ends in FAULTED can have done (R195): it raised, with nothing written before. -/
theorem execWith_raised {P : Params} {i : Instr} {s t : State} {c : Condition} (hexec : execWith P i s = .next t)
    (habort : t.AbortedBy c) : t = s.raised P c ∧ CanRaise P i s c := by
  cases hfault : operandFault P s i.kindedOperands 1 with
  | some c' =>
    cases hexec.symm.trans (execWith_raisesOperandFault P i s c' hfault)
    cases habort
    exact ⟨rfl, .operandCell hfault⟩
  | none =>
    have hscratch := execWith_scratchFaultOnlyIf P i s hfault t hexec
    have hends := execWith_checksMemOperand P i s hfault
    rw [hexec] at hends
    rcases hends with ⟨m, hm, hout, hraise⟩ | ⟨-, ⟨u, hu, hctl⟩ | hraise⟩
    · cases hraise
      cases habort
      exact ⟨rfl, .memOperand hm hout⟩
    · cases hu
      cases hctl.symm.trans habort
    · cases hraise
      cases habort
      exact ⟨rfl, .scratch (hscratch rfl)⟩

theorem exec_raised {i : Instr} {s t : State} {c : Condition} (hexec : exec i s = .next t) (habort : t.AbortedBy c) :
    t = s.raised Config.hardware c ∧ CanRaise Config.hardware i s c :=
  execWith_raised ((execWith_hardware i s).trans hexec) habort

theorem raises_of_execWith {i : Instr} {s : State} {c : Condition}
    (h : execWith Config.hardware i s = .next (s.raised Config.hardware c)) : Raises i s c :=
  ⟨_, (execWith_hardware i s).symm.trans h, rfl, fun _ => rfl, fun _ => rfl, rfl⟩

/-- With no scratch cell to be found, `imulRegMem` by a multiplier that is not 0 raises `NoScratchCell` (R144, R193). -/
theorem imulRegMemWith_raises_of_lacksScratch {P : Params} {s : State} (a : Reg P) {m : Int}
    (h1 : inMemory P (s.pc + 1)) (h2 : inMemory P (s.pc + 2)) (hm : inMemory P m) (hne : s.cell m.toNat ≠ 0)
    (hnone : ∀ j, j < P.memSize → s.cell j ≠ 0) :
    imulRegMemWith P a.id m s = .next (s.raised P .noScratchCell) := by
  have hsearch : scratch P (s.setPc (s.pc + 2)) = .error .noScratchCell := scratch_eq_error_iff.2 hnone
  rw [imulRegMemWith, formRM_go a h1 h2, memRead_ok hm, attempt_ok, State.setPc_cell, if_neg hne, hsearch,
    attempt_error, State.raised_setPc]

/-- Settles O22: of the conditions an instruction can raise, `NoScratchCell` comes from the scratch search; and a memory
with no cell that holds 0 has no multiplier 0 either. -/
theorem noScratchCellExactly : Obligations.NoScratchCellExactly := by
  constructor
  · intro i s t hexec habort
    obtain ⟨-, hcan⟩ := exec_raised hexec habort
    cases hcan with
    | operandCell hfault => rcases operandFault_cases hfault with ⟨a, hc⟩ | ⟨id, hc, -⟩ <;> cases hc
    | scratch hlacks => exact hlacks
  · intro a m s ⟨h1, h2⟩ hm hnone
    have hne : s.cell m.toNat ≠ 0 := hnone m.toNat ((Int.toNat_lt hm.1).2 hm.2)
    exact raises_of_execWith (imulRegMemWith_raises_of_lacksScratch a h1 h2 hm hne hnone)

/-- Settles O42: of the conditions an instruction can raise, `InvalidRegister` comes from its operand cells; and they
raise it where they lie in memory. -/
theorem invalidRegisterExactly : Obligations.InvalidRegisterExactly := by
  constructor
  · intro i s t id hexec habort
    obtain ⟨-, hcan⟩ := exec_raised hexec habort
    cases hcan with
    | operandCell hfault => exact operandFault_invalidRegister hfault
  · intro i s id ⟨h1, hk⟩ hmem hid
    have hlen := kindedOperands_length_le i
    obtain ⟨id', hfault⟩ := operandFault_of_invalid (P := Config.hardware) (s := s) (j := 1)
      (fun n hn hlt => ⟨by omega, by omega⟩) hmem hid
    obtain ⟨hmem', hid'⟩ := operandFault_invalidRegister hfault
    exact ⟨id', hmem', hid', raises_of_execWith (execWith_raisesOperandFault _ i s _ hfault)⟩

/-! ### The step -/

/-- DECODE/EXECUTE that ends in FAULTED ran an instruction, since a halt does not end there (R99). -/
theorem decodeExecute_raised {s t : State} {c : Condition} (hrun : decodeExecute Config.hardware exec s = .next t)
    (habort : t.AbortedBy c) : ∃ i, t = s.raised Config.hardware c ∧ CanRaise Config.hardware i s c := by
  rcases decodeExecute_cases Config.hardware exec s with ⟨i, rest, -, e⟩ | ⟨-, e⟩
  · exact ⟨i, exec_raised (e.symm.trans hrun) habort⟩
  · cases e.symm.trans hrun
    cases habort

/-- Everything a step that ends in FAULTED can have done: FETCH failed, or an instruction raised (R98, R195). -/
theorem step_raised {s t : State} {c : Condition} (hstep : step s = .next t) (habort : t.AbortedBy c) :
    (c = .outOfBounds s.pc ∧ t = s.fetchFaulted) ∨
    ∃ i u, s.SameProgramState u ∧ t = u.raised Config.hardware c ∧ CanRaise Config.hardware i u c := by
  rw [step] at hstep
  rcases cycle_cases Config.hardware exec s with ⟨-, -, e⟩ | ⟨-, -, e⟩ | ⟨-, e⟩ | ⟨-, e⟩ | ⟨c, -, e⟩ <;>
    rw [e] at hstep
  · obtain ⟨i, hi⟩ := decodeExecute_raised hstep habort
    exact .inr ⟨i, s.fetched, ⟨rfl, rfl, rfl⟩, hi⟩
  · cases hstep
    cases habort
    exact .inl ⟨rfl, rfl⟩
  · obtain ⟨i, hi⟩ := decodeExecute_raised hstep habort
    exact .inr ⟨i, s, ⟨rfl, rfl, rfl⟩, hi⟩
  · cases hstep
  · cases hstep

/-- Settles O43: FETCH and `raise` leave memory, registers and flags as they stand. -/
theorem faultingStepChangesNoProgramState : Obligations.FaultingStepChangesNoProgramState := by
  intro s t c hstep habort
  rcases step_raised hstep habort with ⟨-, rfl⟩ | ⟨i, u, ⟨hmem, hgpr, hflags⟩, rfl, -⟩
  · exact ⟨fun _ => rfl, fun _ => rfl, rfl⟩
  · exact ⟨fun r => congrArg (Cells.read · r) hgpr, fun a => congrArg (Cells.read · a) hmem, hflags⟩

/-- Settles O44: `LoadFormat` is not among the conditions FETCH or an instruction can raise. -/
theorem runningBlockNeverRaisesLoadFormat : Obligations.RunningBlockNeverRaisesLoadFormat := by
  intro s t line hstep habort
  rcases step_raised hstep habort with ⟨hc, -⟩ | ⟨i, u, -, -, hcan⟩
  · cases hc
  · cases hcan with
    | operandCell hfault => rcases operandFault_cases hfault with ⟨a, hc⟩ | ⟨id, hc, -⟩ <;> cases hc

end Sys2Proof.Machine
end

section
/-! PROOFS. The run under fuel (70_reset_and_hazards.md R223, R224, R228): a step goes on from every control state that is
not terminal, so a run stops nowhere else. -/

namespace Sys2Proof.Machine

theorem Ctl.terminal_iff {ctl : Ctl} : ctl.terminal = true ↔ ctl = .halted ∨ ∃ c, ctl = .faulted c := by
  cases ctl <;> simp [Ctl.terminal]

theorem decodeExecute_isNext (s : State) : ∃ t, decodeExecute Config.hardware exec s = .next t := by
  rcases decodeExecute_cases Config.hardware exec s with ⟨i, rest, -, e⟩ | ⟨-, e⟩ <;> rw [e]
  · obtain ⟨t, ht, -⟩ := everyInstructionGoesToFetchOrFaulted i s
    exact ⟨t, ht⟩
  · exact ⟨_, rfl⟩

/-- A step that answers no next state was taken at a terminal control state (R97, R110). -/
theorem step_isNext_or_terminal (s : State) : (∃ t, step s = .next t) ∨ s.ctl.terminal = true := by
  rw [step]
  rcases cycle_cases Config.hardware exec s with ⟨-, -, e⟩ | ⟨-, -, e⟩ | ⟨-, e⟩ | ⟨hctl, -⟩ | ⟨c, hctl, -⟩
  · exact .inl (e ▸ decodeExecute_isNext s.fetched)
  · exact .inl ⟨_, e⟩
  · exact .inl (e ▸ decodeExecute_isNext s)
  · exact .inr (Ctl.terminal_iff.2 (.inl hctl))
  · exact .inr (Ctl.terminal_iff.2 (.inr ⟨c, hctl⟩))

/-- A run of steps that go on from every control state that is not terminal stops at a terminal one (R223). -/
theorem run_stopped_terminal {next : State → Result} (hnext : ∀ s, (∃ t, next s = .next t) ∨ s.ctl.terminal = true)
    {fuel : Nat} {s t : State} (h : run next fuel s = .stopped t) : t.ctl.terminal = true := by
  induction fuel generalizing s with
  | zero =>
    rw [run] at h
    split at h
    · next hterminal =>
      cases h
      exact hterminal
    · cases h
  | succ fuel ih =>
    rw [run] at h
    split at h
    · exact ih h
    · next hfault =>
      cases h
      exact (hnext _).resolve_left fun ⟨_, hu⟩ => nomatch hfault.symm.trans hu
    · next hrefused =>
      cases h
      exact (hnext _).resolve_left fun ⟨_, hu⟩ => nomatch hrefused.symm.trans hu

/-- Settles O13, by induction on the fuel. -/
theorem runsStopOnlyAtTerminalStates : Obligations.RunsStopOnlyAtTerminalStates :=
  fun _ _ _ h => Ctl.terminal_iff.1 (run_stopped_terminal step_isNext_or_terminal h)

end Sys2Proof.Machine
end

section
/-! PROOFS. The loader (70_reset_and_hazards.md R221, 60_exceptions.md R194): lines that fit go to consecutive cells, and the
lines after them are loaded from the state they leave. -/

namespace Sys2Proof.Machine

/-- These values written to consecutive cells, from cell `j` on. -/
def Cells.writeFrom (m : Cells) (j : Nat) : List Int → Cells
  | [] => m
  | v :: vs => Cells.writeFrom (Cells.write m j v) (j + 1) vs

theorem Cells.read_writeFrom_outside (m : Cells) {j a : Nat} {vs : List Int} (h : a < j ∨ j + vs.length ≤ a) :
    Cells.read (Cells.writeFrom m j vs) a = Cells.read m a := by
  induction vs generalizing m j with
  | nil => rfl
  | cons v vs ih =>
    rw [List.length_cons] at h
    rw [Cells.writeFrom, ih _ (by omega), Cells.read_write, if_neg (by omega)]

theorem Cells.read_writeFrom_inside (m : Cells) (j : Nat) {k : Nat} {vs : List Int} (h : k < vs.length) :
    Cells.read (Cells.writeFrom m j vs) (j + k) = vs[k] := by
  induction vs generalizing m j k with
  | nil => cases h
  | cons v vs ih =>
    rw [Cells.writeFrom]
    cases k with
    | zero => rw [Cells.read_writeFrom_outside _ (by omega), Cells.read_write, if_pos (by omega), List.getElem_cons_zero]
    | succ k =>
      rw [List.getElem_cons_succ, ← ih (Cells.write m j v) (j + 1) (Nat.lt_of_succ_lt_succ h)]
      congr 1
      omega

/-- Lines that are integers of the width and fit in memory are written to it, and loading goes on with the lines after
them (R221). -/
theorem loadFrom_integers {P : Params} {vs : List Int} (hwidth : ∀ v ∈ vs, P.width.holds v = true) {j : Nat}
    (hfit : j + vs.length ≤ P.memSize) (rest : List ObjectLine) (s : State) :
    loadFrom P (vs.map .integer ++ rest) j s =
      loadFrom P rest (j + vs.length) { s with mem := Cells.writeFrom s.mem j vs } := by
  induction vs generalizing j s with
  | nil => rfl
  | cons v vs ih =>
    obtain ⟨hv, hvs⟩ := List.forall_mem_cons.1 hwidth
    rw [List.length_cons] at hfit
    have hlen : j + (v :: vs).length = j + 1 + vs.length := by rw [List.length_cons]; omega
    rw [hlen, List.map_cons, List.cons_append, loadFrom, if_neg (by simp [hv]), if_neg (by omega), ih hvs (by omega)]
    rfl

theorem loadWith_integers {P : Params} {vs : List Int} (hwidth : ∀ v ∈ vs, P.width.holds v = true)
    (hfit : vs.length ≤ P.memSize) (rest : List ObjectLine) (s : State) :
    loadWith P (vs.map .integer ++ rest) s =
      loadFrom P rest vs.length { s with mem := Cells.writeFrom s.mem 0 vs } := by
  rw [loadWith, loadFrom_integers hwidth (by omega), Nat.zero_add]

/-- Settles O53: once the lines that fit are written, the next line, if there is one, decides how the load ends. -/
theorem loadPlacesLinesOrRefuses : Obligations.LoadPlacesLinesOrRefuses := by
  intro P vs s hwidth hfit
  have hload := fun rest => loadWith_integers hwidth hfit rest s
  refine ⟨?_, fun rest => ?_, fun v rest hv => ?_, fun v rest hv hfull => ?_⟩
  · have hall := hload []
    rw [List.append_nil, loadFrom] at hall
    refine ⟨_, hall, fun j hj => ?_, fun a ha => ?_, fun _ => rfl, rfl, rfl, rfl, rfl⟩
    · have hread := Cells.read_writeFrom_inside s.mem 0 hj
      rwa [Nat.zero_add] at hread
    · exact Cells.read_writeFrom_outside s.mem (.inr (by omega))
  · rw [hload, loadFrom]
    exact ⟨_, rfl, rfl⟩
  · rw [hload, loadFrom, if_pos hv]
    exact ⟨_, rfl, rfl⟩
  · rw [hload, loadFrom, if_neg (by simp [hv]), if_pos hfull.ge]
    exact ⟨_, rfl, rfl⟩

end Sys2Proof.Machine
end
